-- ==== Sys2Proof/Word.lean ====
section
/-! DEFINITION. The widths the spec gives the block's values (00_scope.md R7). All are unsigned (R8). -/

namespace Sys2Proof

/-- One cell of BUF, one byte of the command stream, a record length or header_length (R7). -/
abbrev Byte := BitVec 8

/-- EOM, FSTART, pip, a CRC value, a buffer address or range bound, a response value (R7, R61, R72). -/
abbrev Word16 := BitVec 16

/-- sensor_id (R7, R43). -/
abbrev Word24 := BitVec 24

end Sys2Proof
end

