-- ==== Sys2Proof/Syntax.lean ====
section
/-! DEFINITION. The nine commands of the opcode table, with their operands (30_encoding.md R62 to R68). -/

namespace Sys2Proof

/-- The nine opcodes (R68), without operands. -/
inductive Opcode where
  | start | append | sealMessage | validate | next | reset | crc | bwr | brd
  deriving DecidableEq, Repr

/-- A command with its operands: one constructor per row of the opcode table. Reserved opcodes (R69) are no rows of
the table: the decoder names them, and the step answers them. -/
inductive Instr where
  /-- START, format HDR (R63). -/
  | start (mfr prod : Byte) (pip : Word16) (sensor : Word24)
  /-- APPEND, format REC (R64). The record operand is `len :: body`: `len` is `L = c[1]`, `body` the bytes after it. -/
  | append (len : Byte) (body : List Byte)
  /-- SEAL, format OP. -/
  | sealMessage
  /-- VALIDATE, format OP. -/
  | validate
  /-- NEXT, format OP. -/
  | next
  /-- RESET, format OP. -/
  | reset
  /-- CRC, format RANGE (R65): the byte range `BUF[lo..hi)`. -/
  | crc (lo hi : Word16)
  /-- BWR, format WR (R66). -/
  | bwr (addr : Word16) (data : Byte)
  /-- BRD, format RD (R67). -/
  | brd (addr : Word16)
  deriving DecidableEq, Repr

/-- The opcode of a command. -/
def Instr.opcode : Instr → Opcode
  | .start _ _ _ _ => .start
  | .append _ _ => .append
  | .sealMessage => .sealMessage
  | .validate => .validate
  | .next => .next
  | .reset => .reset
  | .crc _ _ => .crc
  | .bwr _ _ => .bwr
  | .brd _ => .brd

end Sys2Proof
end

