-- ==== Sys2Proof/WellFormed.lean ====
section
/-! DEFINITION. Which terms of `Instr` are commands of the encoding. -/

namespace Sys2Proof

/-- The only check the encoding makes: an APPEND carries `max(L, 1)` record bytes, the length byte included (R62,
R64; with L = 2 as assumption 18 says). Every value of every other operand is legal (R69). -/
def Instr.wf : Instr → Bool
  | .append len body => 1 + body.length == max len.toNat 1
  | .start _ _ _ _ => true
  | .sealMessage => true
  | .validate => true
  | .next => true
  | .reset => true
  | .crc _ _ => true
  | .bwr _ _ => true
  | .brd _ => true

/-- `i` is a command of the encoding. -/
abbrev Instr.WellFormed (i : Instr) : Prop := i.wf = true

end Sys2Proof
end

