-- ==== Sys2Proof/Decode.lean ====
section
/-! DEFINITION. Little-endian byte order, the opcode map, the decoder (total on any bytes), the encoder, the length
rule and the split of a command stream (30_encoding.md R60 to R74). -/

namespace Sys2Proof

/-! ### Byte order (R9, R42, R61) -/

/-- The `n` low bytes of `v`, least significant first: the bytes that MemWrite(_, n, v) writes (R9). -/
def leBytes : Nat → Nat → List Byte
  | 0, _ => []
  | n + 1, v => BitVec.ofNat 8 v :: leBytes n (v / 256)

/-- The little-endian value of a byte sequence: MemRead of those bytes (R9). -/
def leValue : List Byte → Nat
  | [] => 0
  | b :: bs => b.toNat + 256 * leValue bs

/-! ### Opcode map (R68) -/

/-- The opcode byte `c[0]`. -/
def Opcode.byte : Opcode → Byte
  | .start => 0x01
  | .append => 0x02
  | .sealMessage => 0x03
  | .validate => 0x04
  | .next => 0x05
  | .reset => 0x06
  | .crc => 0x07
  | .bwr => 0x08
  | .brd => 0x09

/-- The opcode byte is decoded as a whole (mask 0xFF); 0x00 and 0x0A to 0xFF are reserved (R68, R69). -/
def Opcode.ofByte? (b : Byte) : Option Opcode :=
  match b.toNat with
  | 0x01 => some .start
  | 0x02 => some .append
  | 0x03 => some .sealMessage
  | 0x04 => some .validate
  | 0x05 => some .next
  | 0x06 => some .reset
  | 0x07 => some .crc
  | 0x08 => some .bwr
  | 0x09 => some .brd
  | _ => none

/-! ### Decoding -/

/-- What the bytes at CP are. Decoding is total (R71): bytes that hold no command are named by why. -/
inductive Decoded where
  /-- A complete command. -/
  | command (i : Instr)
  /-- A reserved opcode: a command of one byte (R69). -/
  | reserved (op : Byte)
  /-- Fewer bytes remain than the command that starts here needs (R70, R71). -/
  | incomplete
  /-- No byte remains: CP = |S| (R70). -/
  | finished
  deriving DecidableEq, Repr

/-- The first `n` bytes of a sequence; `none` if it is shorter. -/
def takeExactly : Nat → List Byte → Option (List Byte)
  | 0, _ => some []
  | _ + 1, [] => none
  | n + 1, b :: bs => (takeExactly n bs).map (b :: ·)

/-- The operands of a command, from the bytes after its opcode; `none` if they are too few (R62 to R67). -/
def decodeOperands : Opcode → List Byte → Option Instr
  | .start, mfr :: prod :: p0 :: p1 :: s0 :: s1 :: s2 :: _ =>
    some (.start mfr prod (BitVec.ofNat 16 (leValue [p0, p1])) (BitVec.ofNat 24 (leValue [s0, s1, s2])))
  | .start, _ => none
  | .append, len :: rest => (takeExactly (len.toNat - 1) rest).map (.append len)
  | .append, [] => none
  | .sealMessage, _ => some .sealMessage
  | .validate, _ => some .validate
  | .next, _ => some .next
  | .reset, _ => some .reset
  | .crc, l0 :: l1 :: h0 :: h1 :: _ =>
    some (.crc (BitVec.ofNat 16 (leValue [l0, l1])) (BitVec.ofNat 16 (leValue [h0, h1])))
  | .crc, _ => none
  | .bwr, a0 :: a1 :: d :: _ => some (.bwr (BitVec.ofNat 16 (leValue [a0, a1])) d)
  | .bwr, _ => none
  | .brd, a0 :: a1 :: _ => some (.brd (BitVec.ofNat 16 (leValue [a0, a1])))
  | .brd, _ => none

/-- The command at the head of a byte sequence. -/
def decode : List Byte → Decoded
  | [] => .finished
  | op :: rest =>
    match Opcode.ofByte? op with
    | none => .reserved op
    | some o =>
      match decodeOperands o rest with
      | some i => .command i
      | none => .incomplete

/-! ### Lengths -/

/-- The length of a command in bytes (R62, R68). DEDUCED (assumption 18): an APPEND with L = 2 has 3 bytes, where the
last sentence of R64 also says 2. -/
def Instr.length : Instr → Nat
  | .start _ _ _ _ => 8
  | .append len _ => 1 + max len.toNat 1
  | .sealMessage => 1
  | .validate => 1
  | .next => 1
  | .reset => 1
  | .crc _ _ => 5
  | .bwr _ _ => 4
  | .brd _ => 3

/-- `len(S, CP)` of R71, on the bytes of S from CP on; `none` is the rule's INCOMPLETE (and the empty sequence, for
which the rule gives no length). Assumption 18 on an APPEND with L = 2. -/
def commandLength : List Byte → Option Nat
  | [] => none
  | op :: rest =>
    match op.toNat with
    | 0x01 => some 8
    | 0x02 => rest.head?.map fun len => 1 + max len.toNat 1
    | 0x03 => some 1
    | 0x04 => some 1
    | 0x05 => some 1
    | 0x06 => some 1
    | 0x07 => some 5
    | 0x08 => some 4
    | 0x09 => some 3
    | _ => some 1

/-! ### Encoding -/

/-- The operand bytes of a command (R62 to R67). -/
def encodeOperands : Instr → List Byte
  | .start mfr prod pip sensor => mfr :: prod :: (leBytes 2 pip.toNat ++ leBytes 3 sensor.toNat)
  | .append len body => len :: body
  | .sealMessage => []
  | .validate => []
  | .next => []
  | .reset => []
  | .crc lo hi => leBytes 2 lo.toNat ++ leBytes 2 hi.toNat
  | .bwr addr data => leBytes 2 addr.toNat ++ [data]
  | .brd addr => leBytes 2 addr.toNat

/-- The bytes of a well-formed command. -/
def encode (i : Instr) : List Byte := i.opcode.byte :: encodeOperands i

/-! ### A whole command stream (R60, R71) -/

/-- One complete entry of a command stream: a command, or a reserved opcode byte. -/
inductive StreamItem where
  | command (i : Instr)
  | reserved (op : Byte)
  deriving DecidableEq, Repr

/-- The bytes of one entry. -/
def StreamItem.encode : StreamItem → List Byte
  | .command i => Sys2Proof.encode i
  | .reserved op => [op]

/-- A well-formed entry: a well-formed command, or a byte that is no opcode. -/
def StreamItem.wf : StreamItem → Bool
  | .command i => i.wf
  | .reserved op => (Opcode.ofByte? op).isNone

/-- The bytes of a stream of entries. -/
def encodeStream (items : List StreamItem) : List Byte := items.flatMap StreamItem.encode

/-- `splitStream` with a bound on the number of entries, for structural recursion. -/
def splitStreamWithin : Nat → List Byte → List StreamItem × List Byte
  | 0, bs => ([], bs)
  | fuel + 1, bs =>
    match decode bs with
    | .command i =>
      let (items, tail) := splitStreamWithin fuel (bs.drop i.length)
      (.command i :: items, tail)
    | .reserved op =>
      let (items, tail) := splitStreamWithin fuel (bs.drop 1)
      (.reserved op :: items, tail)
    | .incomplete => ([], bs)
    | .finished => ([], bs)

/-- The complete entries of a byte sequence and its incomplete tail (R71). Each entry takes at least one byte, so the
sequence's length bounds their number. -/
def splitStream (bs : List Byte) : List StreamItem × List Byte := splitStreamWithin bs.length bs

/-! ### The host's view of the opcode table -/

/-- The longest command, in bytes: APPEND with L = 255 (R64). -/
def longestCommand : Nat := 256

/-- The bytes of a table word: bit 0 is the least significant bit of the first byte, and every bit from `nbits` up to
the longest command is zero. -/
def tableBytes (nbits w : Nat) : List Byte := leBytes longestCommand (w % 2 ^ nbits)

/-- The command the decoder reads from a table word; `none` where it reads none. -/
def decodeTableWord (nbits w : Nat) : Option Instr :=
  match decode (tableBytes nbits w) with
  | .command i => some i
  | .reserved _ => none
  | .incomplete => none
  | .finished => none

end Sys2Proof
end

