-- ==== Sys2Proof/Config.lean ====
section
/-! DEFINITION. What an implementation fixes: CAPACITY, the one open parameter of the block (00_scope.md R2, R5). -/

namespace Sys2Proof

/-- CAPACITY, the number of bytes of BUF, with its legal range 11 to 263 (R5, decision D7). The two bounds are proof
fields, so a value outside the range cannot be written down: R5 says that it is no configuration of this block
(93_implementation_defined.md I3). -/
structure Capacity where
  bytes : Nat
  least : 11 ≤ bytes
  greatest : bytes ≤ 263
  deriving DecidableEq, Repr

end Sys2Proof
end

