-- ==== Sys2Proof/Machine/Layout.lean ====
section
/-! DEFINITION. The fixed constants of the block (00_scope.md R6). Every one is taken as normative, each in one
definition, so that a corrected literal changes one line (93_implementation_defined.md I7; assumption 13). -/

namespace Sys2Proof.Machine

/-- CRC_START: where checksum coverage begins (R6, R51). -/
@[simp] def crcStart : Nat := 5

/-- HEADER_SIZE (R6). -/
@[simp] def headerSize : Nat := 8

/-- HL_OFFSET, the offset of header_length (R6). -/
@[simp] def hlOffset : Nat := 7

/-- RECORDS_START (R6). -/
@[simp] def recordsStart : Nat := 8

/-- FOOTER_SIZE: eod and the two crc bytes (R6). -/
@[simp] def footerSize : Nat := 3

/-- HEADER_TAIL = HEADER_SIZE - CRC_START: the covered header bytes (R6). -/
@[simp] def headerTail : Nat := 3

/-- DESC_SIZE, a record's length byte and tag (R6, R49, decision D6). -/
@[simp] def descSize : Nat := 2

end Sys2Proof.Machine
end

