-- ==== Sys2Proof/Machine/State.lean ====
section
/-! DEFINITION. The state of one block (10_state.md), the two channels to its host, the reasons a step can stop, and
the state after power-on reset. -/

namespace Sys2Proof.Machine

/-- PHASE (R25). The reserved values 6 and 7 are never reached, and the type lacks them (93 I5). -/
inductive Phase where
  /-- No message in progress. -/
  | idle
  /-- A header has been started; APPEND and SEAL are allowed. -/
  | encoding
  /-- A frame has been sealed in BUF. -/
  | sealed
  /-- A frame has been validated; NEXT is allowed. -/
  | decoding
  /-- An APPEND or SEAL failed with BoundsExceeded. -/
  | aborted
  /-- The last VALIDATE failed. -/
  | rejected
  deriving DecidableEq, Repr

/-- The status of a response (30_encoding.md R73). -/
inductive Status where
  | ok | boundsExceeded | checksumMismatch | malformedSentinel | iterationExhausted | malformedRecord
  | sequenceError | illegalCommand
  deriving DecidableEq, Repr

/-- A response: what one command answers its host (R72). -/
structure Response where
  status : Status
  v0 : Word16
  v1 : Word16
  deriving DecidableEq, Repr

/-- The contents of BUF: the listed cells, addresses strictly rising, none equal to `unlistedByte` of Ops.lean, which
every other address reads as. -/
abbrev Memory := List Host.Cell

/-- The state. `mem`, `eom`, `fstart` and `phase` are the block's four items (R20). `cap` is the parameter CAPACITY
of this block (R5): no step changes it. `stream`, `cp` and `out` are the two channels to the host (R40): the bytes it
supplies, how far the block has come in them, and the responses it has been given (DESIGN CHOICE, assumption 3). -/
structure State where
  /-- CAPACITY (R5). -/
  cap : Capacity
  /-- BUF (R21). -/
  mem : Memory
  /-- EOM, the cursor (R22). -/
  eom : Word16
  /-- FSTART, the footer start of the frame last validated (R24). -/
  fstart : Word16
  /-- PHASE (R25). -/
  phase : Phase
  /-- S, the host's command stream (R60). -/
  stream : List Byte
  /-- CP, the offset in S of the next command's first byte (R27). -/
  cp : Nat
  /-- The responses emitted in this run, in stream order (R28, R72). -/
  out : List Response
  deriving DecidableEq, Repr

/-- Why a step answers no next state. The block has no faults of its own: every error is a status (R140). DESIGN
CHOICE: the end of a run is a stop (assumption 4); so is what no run reaches (assumption 7). -/
inductive Fault where
  /-- Raised by `step` when no byte remains: the run is Complete (R70). It is the end of a run, not an error. Safe:
  nothing follows it. -/
  | runComplete
  /-- Raised by `step` when fewer bytes remain than the command at CP needs: the run is Incomplete, and the command is
  not executed (R70). Safe: what later bytes would do is not said. -/
  | runIncomplete
  /-- Raised by `loadRange` and `storeRange` for an access outside BUF, an address the spec says does not exist (R50).
  No state that keeps R23 and R33 reaches it. Safe: the machine stops. -/
  | outsideBuf (addr : Nat)
  /-- Raised by SEAL when EOM lies below CRC_START, where EOM - CRC_START has no 8-bit value (R8, R92). No state that
  a run reaches has it. Safe: the machine stops. -/
  | cursorBelowCrcStart
  deriving DecidableEq, Repr

/-- Why a command is given no meaning. -/
inductive Refusal where
  /-- Raised by an arm of `exec` whose command is not modelled. Safe. No arm is. -/
  | notModelled (mnemonic : String)
  deriving DecidableEq, Repr

/-- What a command, or a step, answers. -/
abbrev Result := Host.Outcome State Fault Refusal

/-- The state right after power-on reset (R31, R160) of a block of capacity `cap` whose BUF comes up as `draw`: the
spec leaves BUF's contents a draw, and the two channels are empty. -/
def State.powerOn (cap : Capacity) (draw : Memory) : State where
  cap := cap
  mem := draw
  eom := BitVec.ofNat 16 crcStart
  fstart := 0
  phase := .idle
  stream := []
  cp := 0
  out := []

/-- The machine right after reset: a block of the greatest legal capacity with nothing listed in BUF. DESIGN CHOICE:
the capacity (assumption 2) and the power-on contents of BUF (assumption 1). -/
def State.reset : State := State.powerOn ⟨263, by decide, by decide⟩ []

end Sys2Proof.Machine
end

