-- ==== Sys2Proof/Machine/Ops.lean ====
section
/-! DEFINITION. The named operations over BUF, the registers and the response channel (00_scope.md R9), and the
events that come from outside: a power-on reset and the start of a run. -/

namespace Sys2Proof.Machine

/-! ### BUF -/

/-- What an unlisted address reads as. DESIGN CHOICE (assumption 1): the spec leaves BUF's power-on contents open. -/
def unlistedByte : Byte := 0x00

/-- The byte at an address. -/
def Memory.read : Memory → Nat → Byte
  | [], _ => unlistedByte
  | (b, v) :: m, a => if a = b then v else Memory.read m a

/-- The cells without those of one address. -/
def Memory.erase : Memory → Nat → Memory
  | [], _ => []
  | (b, v) :: m, a => if a = b then Memory.erase m a else (b, v) :: Memory.erase m a

/-- The cells with one more, put before the first cell of a greater address. -/
def Memory.insertCell : Memory → Nat → Byte → Memory
  | [], a, v => [(a, v)]
  | (b, w) :: m, a, v => if a < b then (a, v) :: (b, w) :: m else (b, w) :: Memory.insertCell m a v

/-- `BUF[a] <- v` on the cells, keeping the canonical form. -/
def Memory.write (m : Memory) (a : Nat) (v : Byte) : Memory :=
  if v = unlistedByte then m.erase a else (m.erase a).insertCell a v

/-- `BUF[lo..lo+n)`. -/
def Memory.readRange (m : Memory) (lo : Nat) : Nat → List Byte
  | 0 => []
  | n + 1 => m.read lo :: Memory.readRange m (lo + 1) n

/-- Write a byte sequence from address `lo` on. -/
def Memory.writeRange (m : Memory) (lo : Nat) : List Byte → Memory
  | [] => m
  | b :: bs => Memory.writeRange (m.write lo b) (lo + 1) bs

/-- Every listed address is at least `lo`, and the addresses rise strictly from there; no entry holds `unlistedByte`. -/
def Memory.wfFrom : Nat → Memory → Bool
  | _, [] => true
  | lo, (b, v) :: m => decide (lo ≤ b) && decide (v ≠ unlistedByte) && Memory.wfFrom (b + 1) m

/-- The canonical form. -/
def Memory.wf (m : Memory) : Bool := Memory.wfFrom 0 m

/-- Every listed address is below `n`. -/
def Memory.within (n : Nat) (m : Memory) : Bool := m.all fun c => decide (c.1 < n)

/-- The canonical cells of the bytes `f a` for the `n` addresses from `lo` on. -/
def Memory.ofFun (f : Nat → Byte) (lo : Nat) : Nat → Memory
  | 0 => []
  | n + 1 =>
    if f lo = unlistedByte then Memory.ofFun f (lo + 1) n else (lo, f lo) :: Memory.ofFun f (lo + 1) n

/-! ### Accesses of a state -/

/-- `BUF[a]`. -/
def State.buf (s : State) (a : Nat) : Byte := s.mem.read a

/-- `BUF[lo..lo+n)`. -/
def State.bufRange (s : State) (lo n : Nat) : List Byte := s.mem.readRange lo n

/-- Read `BUF[lo..lo+n)` and go on with the bytes. An access that leaves BUF stops the machine: no command may make
one (R50). -/
def State.loadRange (s : State) (lo n : Nat) (k : List Byte → Result) : Result :=
  if lo + n ≤ s.cap.bytes then k (s.bufRange lo n) else .fault (.outsideBuf (lo + n - 1))

/-- Read `BUF[a]` and go on with the byte. -/
def State.loadByte (s : State) (a : Nat) (k : Byte → Result) : Result :=
  if a < s.cap.bytes then k (s.buf a) else .fault (.outsideBuf a)

/-- Write a byte sequence to BUF from `lo` on, and go on in the state that holds it. An access that leaves BUF stops
the machine with nothing written. -/
def State.storeRange (s : State) (lo : Nat) (bs : List Byte) (k : State → Result) : Result :=
  if lo + bs.length ≤ s.cap.bytes then k { s with mem := s.mem.writeRange lo bs }
  else .fault (.outsideBuf (lo + bs.length - 1))

/-- `EOM <- v` (R9); the values the rules write are below 2^16 (R7). -/
def State.setEom (s : State) (v : Nat) : State := { s with eom := BitVec.ofNat 16 v }

/-- `FSTART <- v`. -/
def State.setFstart (s : State) (v : Nat) : State := { s with fstart := BitVec.ofNat 16 v }

/-- `PHASE <- p`. -/
def State.setPhase (s : State) (p : Phase) : State := { s with phase := p }

/-! ### Ending a command -/

/-- The state with one more response emitted. -/
def State.emit (s : State) (r : Response) : State := { s with out := s.out ++ [r] }

/-- `respond(status, v0, v1)`: the command ends and its response is emitted (R9, R72). -/
def State.respond (s : State) (status : Status) (v0 v1 : Word16) : Result := .next (s.emit ⟨status, v0, v1⟩)

/-- `raise <Status>` = `respond(<Status>, 0, 0)` (R9). The block's errors all go this way: no trap is taken, nothing
is saved, no vector or mode exists (60_exceptions.md R140, R146). -/
def State.raise (s : State) (status : Status) : Result := s.respond status 0 0

/-- `CP <- CP + len` after a command that ran (R27). -/
def advance (len : Nat) : Result → Result
  | .next s => .next { s with cp := s.cp + len }
  | .fault r => .fault r
  | .refused r => .refused r

/-! ### The command stream and events from outside -/

/-- The bytes of the stream from CP on. -/
def State.pending (s : State) : List Byte := s.stream.drop s.cp

/-- The host starts a run on the stream `bs`: CP = 0, from the state in force (R70). DESIGN CHOICE (assumptions 5, 15):
all its bytes are there from the start. -/
def State.startRun (s : State) (bs : List Byte) : State := { s with stream := bs, cp := 0, out := [] }

/-- A power-on reset of the block (R160): its registers take their reset values, BUF comes up as `draw`, and the bytes
received so far are discarded, so that the first byte of the next run is read as an opcode. DESIGN CHOICE (assumption
11): it is taken between steps and leaves no stream. -/
def State.powerOnReset (s : State) (draw : Memory) : State := State.powerOn s.cap draw

end Sys2Proof.Machine
end

