-- ==== Sys2Proof/Machine/Buffer.lean ====
section
/-! DEFINITION. The host's access to BUF (41_framer.md section 5): BWR and BRD; and the answer to a reserved opcode
(30_encoding.md R69). -/

namespace Sys2Proof.Machine

/-- BWR (R94): write one byte of BUF. The address never wraps. -/
def execBwr (addr : Word16) (data : Byte) (s : State) : Result :=
  if addr.toNat ≥ s.cap.bytes then s.raise .boundsExceeded
  else s.storeRange addr.toNat [data] fun s1 => s1.respond .ok 0 0

/-- BRD (R95): read one byte of BUF, zero-extended. -/
def execBrd (addr : Word16) (s : State) : Result :=
  if addr.toNat ≥ s.cap.bytes then s.raise .boundsExceeded
  else s.loadByte addr.toNat fun b => s.respond .ok (b.setWidth 16) 0

/-- A reserved opcode (R69): IllegalCommand, and no state changes. DESIGN CHOICE (assumption 16): it has no
constructor of `Instr`. -/
def execReserved (s : State) : Result := s.raise .illegalCommand

end Sys2Proof.Machine
end

