-- ==== Sys2Proof/Machine/Crc.lean ====
section
/-! DEFINITION. The CRC-16/CCITT generator and the CRC command (40_crc.md). -/

namespace Sys2Proof.Machine

/-- CRC_POLY (00_scope.md R6, R81). -/
def crcPoly : Word16 := 0x1021

/-- CRC_INIT (R6, R81). -/
def crcInit : Word16 := 0x0000

/-- CRC_XOROUT (R6, decision D19). -/
def crcXorOut : Word16 := 0x0000

/-- One round of R80: bit 15 is tested before the shift, and the shift drops it. -/
def crcRound (r : Word16) : Word16 :=
  if r.getLsbD 15 then (r <<< 1) ^^^ crcPoly else r <<< 1

/-- `n` rounds. -/
def crcRounds : Nat → Word16 → Word16
  | 0, r => r
  | n + 1, r => crcRounds n (crcRound r)

/-- One byte of R80: into the high 8 bits, then 8 rounds. -/
def crcByte (r : Word16) (b : Byte) : Word16 := crcRounds 8 (r ^^^ (b.setWidth 16 <<< 8))

/-- `crc16(seq)` (R80). -/
def crc16 (seq : List Byte) : Word16 := seq.foldl crcByte crcInit ^^^ crcXorOut

/-- CRC (R83): crc16 over `BUF[lo..hi)`. -/
def execCrc (lo hi : Word16) (s : State) : Result :=
  if lo.toNat > hi.toNat ∨ hi.toNat > s.cap.bytes then s.raise .boundsExceeded
  else s.loadRange lo.toNat (hi.toNat - lo.toNat) fun bytes => s.respond .ok (crc16 bytes) 0

end Sys2Proof.Machine
end

