-- ==== Sys2Proof/Machine/Operands.lean ====
section
/-! DEFINITION. The operand forms as the commands use them (30_encoding.md R63, R64, R74; 20_memory.md R48). Buffer
addresses and range bounds are used as they stand: unsigned byte offsets, neither scaled nor relative to CP (R74). -/

namespace Sys2Proof.Machine

/-- The eight header bytes START writes: manufacturer, product, pip and sensor (little-endian, R43) and the
header_length placeholder 0x00 (R48, R90, decision D9). -/
def headerBytes (mfr prod : Byte) (pip : Word16) (sensor : Word24) : List Byte :=
  mfr :: prod :: (leBytes 2 pip.toNat ++ leBytes 3 sensor.toNat ++ [0x00])

/-- The record operand `rec[0 .. L)` of APPEND: its length byte, then its tag and payload (R64, R49). A well-formed
APPEND with L ≥ 2 has exactly these L bytes; another term is cut to L (DESIGN CHOICE, assumption 10). -/
def recordBytes (len : Byte) (body : List Byte) : List Byte := (len :: body).take len.toNat

/-- The three footer bytes SEAL writes: eod = 0x00, then the crc, low byte first (R48, R92). -/
def footerBytes (crc : Word16) : List Byte := 0x00 :: leBytes 2 crc.toNat

end Sys2Proof.Machine
end

