-- ==== Sys2Proof/Machine/Framer.lean ====
section
/-! DEFINITION. The message framer (41_framer.md): START, APPEND, SEAL, RESET. -/

namespace Sys2Proof.Machine

/-- START (R90): write a new header and open a message. Allowed in every PHASE; it cannot fail. -/
def execStart (mfr prod : Byte) (pip : Word16) (sensor : Word24) (s : State) : Result :=
  s.storeRange 0 (headerBytes mfr prod pip sensor) fun s1 =>
    let s2 := (s1.setEom headerSize).setPhase .encoding
    s2.respond .ok s2.eom 0

/-- APPEND (R91): copy one record into BUF at the cursor. The checks are made in the order of 60_exceptions.md R145. -/
def execAppend (len : Byte) (body : List Byte) (s : State) : Result :=
  if s.phase ≠ .encoding then s.raise .sequenceError
  else if len.toNat < descSize then s.raise .malformedRecord
  else if s.eom.toNat + len.toNat > s.cap.bytes then (s.setPhase .aborted).raise .boundsExceeded
  else
    s.storeRange s.eom.toNat (recordBytes len body) fun s1 =>
      let s2 := s1.setEom (s.eom.toNat + len.toNat)
      s2.respond .ok s2.eom 0

/-- The header_length SEAL writes, EOM - CRC_START (R92): 3 to 255 in every state a run reaches. -/
def State.sealLength (s : State) (k : Byte → Result) : Result :=
  if crcStart ≤ s.eom.toNat then k (BitVec.ofNat 8 (s.eom.toNat - crcStart)) else .fault .cursorBelowCrcStart

/-- SEAL (R92): write header_length FIRST, then the footer with the crc that covers it (90_conflicts.md C1). -/
def execSeal (s : State) : Result :=
  if s.phase ≠ .encoding then s.raise .sequenceError
  else if s.eom.toNat + footerSize > s.cap.bytes then (s.setPhase .aborted).raise .boundsExceeded
  else
    s.sealLength fun hl =>
      s.storeRange hlOffset [hl] fun s1 =>
        s1.loadRange crcStart (s.eom.toNat - crcStart) fun covered =>
          let c := crc16 covered
          s1.storeRange s.eom.toNat (footerBytes c) fun s2 =>
            let s3 := (s2.setEom (s.eom.toNat + footerSize)).setPhase .sealed
            s3.respond .ok s3.eom c

/-- RESET (R93): rewind the cursor. BUF and FSTART stay. -/
def execReset (s : State) : Result :=
  let s1 := (s.setEom crcStart).setPhase .idle
  s1.respond .ok s1.eom 0

end Sys2Proof.Machine
end

