-- ==== Sys2Proof/Machine/Iterator.lean ====
section
/-! DEFINITION. The record iterator (42_iterator.md): VALIDATE and NEXT. -/

namespace Sys2Proof.Machine

/-- VALIDATE fails: PHASE becomes REJECTED and nothing else changes (R120, decision D15; 60_exceptions.md R143).
DEDUCED (assumption 9): also in ENCODING. -/
def State.reject (s : State) (status : Status) : Result := (s.setPhase .rejected).raise status

/-- VALIDATE (R120): check the frame in BUF (geometry, then crc, then sentinel) and open it for iteration. It ignores
EOM and is allowed in every PHASE. -/
def execValidate (s : State) : Result :=
  s.loadByte hlOffset fun hl =>
    let f := crcStart + hl.toNat
    if hl.toNat < headerTail ∨ f + footerSize > s.cap.bytes then s.reject .checksumMismatch
    else
      s.loadRange crcStart (f - crcStart) fun covered =>
        s.loadRange (f + 1) 2 fun stored =>
          if (crc16 covered).toNat ≠ leValue stored then s.reject .checksumMismatch
          else
            s.loadByte f fun eod =>
              if eod ≠ 0x00 then s.reject .malformedSentinel
              else
                let s1 := ((s.setEom recordsStart).setFstart f).setPhase .decoding
                s1.respond .ok s1.fstart 0

/-- NEXT (R121): return the record at the cursor as a view (offset, length) and step past it. Iteration ends when the
cursor reaches FSTART. DEDUCED (assumption 8): it moves EOM, though R22's list leaves it out. -/
def execNext (s : State) : Result :=
  if s.phase ≠ .decoding then s.raise .sequenceError
  else if s.eom = s.fstart then s.raise .iterationExhausted
  else
    s.loadByte s.eom.toNat fun len =>
      if len.toNat < descSize ∨ s.eom.toNat + len.toNat > s.fstart.toNat then s.raise .malformedRecord
      else (s.setEom (s.eom.toNat + len.toNat)).respond .ok s.eom (len.setWidth 16)

end Sys2Proof.Machine
end

