-- ==== Sys2Proof/Machine/Dispatch.lean ====
section
/-! DEFINITION. One arm per command: its meaning. -/

namespace Sys2Proof.Machine

def exec (i : Instr) (s : State) : Host.Outcome State Fault Refusal :=
  match i with
  | .start mfr prod pip sensor => Sys2Proof.Machine.execStart mfr prod pip sensor s
  | .append len body => Sys2Proof.Machine.execAppend len body s
  | .sealMessage => Sys2Proof.Machine.execSeal s
  | .validate => Sys2Proof.Machine.execValidate s
  | .next => Sys2Proof.Machine.execNext s
  | .reset => Sys2Proof.Machine.execReset s
  | .crc lo hi => Sys2Proof.Machine.execCrc lo hi s
  | .bwr addr data => Sys2Proof.Machine.execBwr addr data s
  | .brd addr => Sys2Proof.Machine.execBrd addr s

end Sys2Proof.Machine
end

