-- ==== Sys2Proof/Machine/Step.lean ====
section
/-! DEFINITION. One step: fetch the command at CP from the command stream, run it, move CP past it (30_encoding.md
R60, R70, R71; 10_state.md R27). Commands come from the stream, never from BUF (20_memory.md R56). -/

namespace Sys2Proof.Machine

/-- One command of the stream. The run ends when no complete command remains (R70). DESIGN CHOICE (assumptions 4, 6):
the end is a stop, and CP moves after the command. -/
def step (s : State) : Host.Outcome State Fault Refusal :=
  match decode s.pending with
  | .command i => advance i.length (exec i s)
  | .reserved _ => advance 1 (execReserved s)
  | .incomplete => .fault .runIncomplete
  | .finished => .fault .runComplete

/-- `s` with a table word's bytes (zeros above `nbits`, up to the longest command) where the next step fetches: in the
command stream from CP on. DESIGN CHOICE (assumption 17). -/
def State.withFetchWord (s : State) (nbits w : Nat) : State :=
  { s with stream := s.stream.take s.cp ++ List.replicate (s.cp - s.stream.length) 0 ++ tableBytes nbits w }

end Sys2Proof.Machine
end

