-- ==== Sys2Proof/Machine/Assembler.lean ====
section
/-! DEFINITION. The assembly language (30_encoding.md R75) and its pseudo-instructions (R76): a line's abstract form,
its expansion, its bytes, and the reading of program text (DESIGN CHOICE, assumption 12, on its details). It is
notation for command streams, not part of the block. -/

namespace Sys2Proof.Machine

/-! ### Lines -/

/-- A line of R75's table, with its operands as the numbers written. -/
inductive AsmCore where
  | start (mfr prod pip sensor : Nat)
  | append (bytes : List Nat)
  | sealMessage
  | validate
  | next
  | reset
  | crc (lo hi : Nat)
  | bwr (addr data : Nat)
  | brd (addr : Nat)
  /-- `.byte b`: a raw byte. -/
  | byte (b : Nat)
  deriving DecidableEq, Repr

/-- A line of a program: a line of R75, or a pseudo-instruction of R76. -/
inductive AsmLine where
  | core (c : AsmCore)
  /-- `rec tag, [p0, ...]`. -/
  | record (tag : Nat) (payload : List Nat)
  /-- `wrbuf addr, [d0, ...]`. -/
  | wrbuf (addr : Nat) (data : List Nat)
  /-- `rdbuf addr, n`. -/
  | rdbuf (addr n : Nat)
  /-- `crcbuf start, n`. -/
  | crcbuf (start n : Nat)
  deriving DecidableEq, Repr

/-- An operand in its field; the assembler refuses one that does not fit (R75). -/
def fit (bits n : Nat) : Option (BitVec bits) := if n < 2 ^ bits then some (BitVec.ofNat bits n) else none

/-- The bytes of a list operand. -/
def fitBytes : List Nat → Option (List Byte)
  | [] => some []
  | n :: ns => do
    let b ← fit 8 n
    let bs ← fitBytes ns
    return b :: bs

/-- One BWR a byte, at rising addresses (R76). -/
def expandWrbuf (addr : Nat) : List Nat → List AsmCore
  | [] => []
  | d :: ds => .bwr addr d :: expandWrbuf (addr + 1) ds

/-- `n` BRDs at rising addresses (R76). -/
def expandRdbuf (addr : Nat) : Nat → List AsmCore
  | 0 => []
  | n + 1 => .brd addr :: expandRdbuf (addr + 1) n

/-- The expansion of a line (R76). -/
def AsmLine.expand : AsmLine → Option (List AsmCore)
  | .core c => some [c]
  | .record tag payload =>
    if payload.length ≤ 253 then some [.append ((payload.length + 2) :: tag :: payload)] else none
  | .wrbuf addr data => some (expandWrbuf addr data)
  | .rdbuf addr n => some (expandRdbuf addr n)
  | .crcbuf start n => some [.crc start (start + n)]

/-- The bytes of a line of R75. An `append` list has exactly max(L, 1) bytes. -/
def AsmCore.assemble : AsmCore → Option (List Byte)
  | .start mfr prod pip sensor => do
    return encode (.start (← fit 8 mfr) (← fit 8 prod) (← fit 16 pip) (← fit 24 sensor))
  | .append bytes => do
    match ← fitBytes bytes with
    | [] => none
    | len :: body => if (Instr.append len body).wf then some (encode (.append len body)) else none
  | .sealMessage => some (encode .sealMessage)
  | .validate => some (encode .validate)
  | .next => some (encode .next)
  | .reset => some (encode .reset)
  | .crc lo hi => do return encode (.crc (← fit 16 lo) (← fit 16 hi))
  | .bwr addr data => do return encode (.bwr (← fit 16 addr) (← fit 8 data))
  | .brd addr => do return encode (.brd (← fit 16 addr))
  | .byte b => do return [← fit 8 b]

/-- The bytes of several lines of R75. -/
def assembleCores : List AsmCore → Option (List Byte)
  | [] => some []
  | c :: cs => do
    let b ← c.assemble
    let bs ← assembleCores cs
    return b ++ bs

/-- The bytes of a line. -/
def AsmLine.assemble (l : AsmLine) : Option (List Byte) := l.expand.bind assembleCores

/-- The command stream of a program. -/
def assembleProgram : List AsmLine → Option (List Byte)
  | [] => some []
  | l :: ls => do
    let b ← l.assemble
    let bs ← assembleProgram ls
    return b ++ bs

/-- The line that writes a command. -/
def AsmCore.ofInstr : Instr → AsmCore
  | .start mfr prod pip sensor => .start mfr.toNat prod.toNat pip.toNat sensor.toNat
  | .append len body => .append (len.toNat :: body.map BitVec.toNat)
  | .sealMessage => .sealMessage
  | .validate => .validate
  | .next => .next
  | .reset => .reset
  | .crc lo hi => .crc lo.toNat hi.toNat
  | .bwr addr data => .bwr addr.toNat data.toNat
  | .brd addr => .brd addr.toNat

/-! ### Text -/

/-- A token of a line. -/
inductive AsmToken where
  | word (w : List Char)
  | number (n : Nat)
  | comma
  | listOpen
  | listClose
  deriving DecidableEq, Repr

/-- The value of a digit in a base of at most 16; both cases of the hexadecimal letters are read. -/
def digitIn (base : Nat) (c : Char) : Option Nat :=
  let v :=
    if 0x30 ≤ c.toNat ∧ c.toNat ≤ 0x39 then c.toNat - 0x30
    else if 0x61 ≤ c.toNat ∧ c.toNat ≤ 0x66 then c.toNat - 0x61 + 10
    else if 0x41 ≤ c.toNat ∧ c.toNat ≤ 0x46 then c.toNat - 0x41 + 10
    else base
  if v < base then some v else none

/-- The value of a digit sequence, most significant first, after the value `acc` of the digits before it. -/
def digitsIn (base acc : Nat) : List Char → Option Nat
  | [] => some acc
  | c :: cs => do
    let d ← digitIn base c
    digitsIn base (acc * base + d) cs

/-- Numbers are decimal, or hexadecimal with a 0x prefix (R75). -/
def readNumber : List Char → Option Nat
  | ['0', 'x'] => none
  | '0' :: 'x' :: ds => digitsIn 16 0 ds
  | ds => digitsIn 10 0 ds

/-- A run of characters between separators: a number if it begins with a digit, else a word. -/
def readWord : List Char → Option (List AsmToken)
  | [] => some []
  | c :: cs =>
    if (digitIn 10 c).isSome then (readNumber (c :: cs)).map fun n => [.number n] else some [.word (c :: cs)]

/-- The tokens of a line, after the characters `acc` of a run still open. `;` starts a comment (R75). -/
def lexFrom (acc : List Char) : List Char → Option (List AsmToken)
  | [] => readWord acc
  | c :: cs =>
    if c = ';' then readWord acc
    else if c = ' ' ∨ c = '\t' ∨ c = '\r' then do return (← readWord acc) ++ (← lexFrom [] cs)
    else if c = ',' then do return (← readWord acc) ++ .comma :: (← lexFrom [] cs)
    else if c = '[' then do return (← readWord acc) ++ .listOpen :: (← lexFrom [] cs)
    else if c = ']' then do return (← readWord acc) ++ .listClose :: (← lexFrom [] cs)
    else lexFrom (acc ++ [c]) cs

/-- An operand as written: a number or a byte list. -/
inductive AsmOperand where
  | number (n : Nat)
  | bytes (ns : List Nat)
  deriving DecidableEq, Repr

/-- The rest of a byte list, from a number on, up to its closing bracket. -/
def parseItems : List AsmToken → Option (List Nat × List AsmToken)
  | .number n :: .listClose :: rest => some ([n], rest)
  | .number n :: .comma :: rest => (parseItems rest).map fun r => (n :: r.1, r.2)
  | _ => none

/-- A byte list after its opening bracket. -/
def parseList : List AsmToken → Option (List Nat × List AsmToken)
  | .listClose :: rest => some ([], rest)
  | ts => parseItems ts

/-- Operands separated by commas; `fuel` bounds their number. -/
def parseOperands : Nat → List AsmToken → Option (List AsmOperand)
  | 0, _ => none
  | _ + 1, [.number n] => some [.number n]
  | fuel + 1, .number n :: .comma :: rest => (parseOperands fuel rest).map (.number n :: ·)
  | fuel + 1, .listOpen :: rest =>
    match parseList rest with
    | some (ns, []) => some [.bytes ns]
    | some (ns, .comma :: rest') => (parseOperands fuel rest').map (.bytes ns :: ·)
    | _ => none
  | _ + 1, _ => none

/-- The line a mnemonic and its operands make (R75, R76); mnemonics are lower case. -/
def makeLine : List Char → List AsmOperand → Option AsmLine
  | ['s', 't', 'a', 'r', 't'], [.number m, .number p, .number q, .number s] => some (.core (.start m p q s))
  | ['a', 'p', 'p', 'e', 'n', 'd'], [.bytes bs] => some (.core (.append bs))
  | ['s', 'e', 'a', 'l'], [] => some (.core .sealMessage)
  | ['v', 'a', 'l', 'i', 'd', 'a', 't', 'e'], [] => some (.core .validate)
  | ['n', 'e', 'x', 't'], [] => some (.core .next)
  | ['r', 'e', 's', 'e', 't'], [] => some (.core .reset)
  | ['c', 'r', 'c'], [.number lo, .number hi] => some (.core (.crc lo hi))
  | ['b', 'w', 'r'], [.number a, .number d] => some (.core (.bwr a d))
  | ['b', 'r', 'd'], [.number a] => some (.core (.brd a))
  | ['.', 'b', 'y', 't', 'e'], [.number b] => some (.core (.byte b))
  | ['r', 'e', 'c'], [.number t, .bytes ps] => some (.record t ps)
  | ['w', 'r', 'b', 'u', 'f'], [.number a, .bytes ds] => some (.wrbuf a ds)
  | ['r', 'd', 'b', 'u', 'f'], [.number a, .number n] => some (.rdbuf a n)
  | ['c', 'r', 'c', 'b', 'u', 'f'], [.number a, .number n] => some (.crcbuf a n)
  | _, _ => none

/-- The lines one line of text makes: none if it is blank or a comment, else one. -/
def parseLine (text : List Char) : Option (List AsmLine) := do
  match ← lexFrom [] text with
  | [] => return []
  | [.word w] => return [← makeLine w []]
  | .word w :: ts => return [← makeLine w (← parseOperands ts.length ts)]
  | _ => none

/-- The lines of a text, after the characters `acc` of a line still open. -/
def splitLines (acc : List Char) : List Char → List (List Char)
  | [] => [acc]
  | c :: cs => if c = '\n' then acc :: splitLines [] cs else splitLines (acc ++ [c]) cs

/-- The lines several lines of text make. -/
def parseLines : List (List Char) → Option (List AsmLine)
  | [] => some []
  | l :: ls => do return (← parseLine l) ++ (← parseLines ls)

/-- A program from its text: one command per line (R75). -/
def parseProgram (text : List Char) : Option (List AsmLine) := parseLines (splitLines [] text)

/-- The command stream a program's text assembles to; `none` if the assembler refuses it. -/
def assembleText (text : List Char) : Option (List Byte) := (parseProgram text).bind assembleProgram

end Sys2Proof.Machine
end

