-- ==== Sys2Proof/Machine/Flags.lean ====
section
/-! DEFINITION. The block has no flags or condition codes (10_state.md R30). What tells how a command went is the
status of its response: here are the codes and the five bytes of a response on the wire (30_encoding.md R72, R73),
and PHASE as its 3-bit register value (R25). -/

namespace Sys2Proof.Machine

/-- The status codes (R73). -/
def Status.code : Status → Byte
  | .ok => 0
  | .boundsExceeded => 1
  | .checksumMismatch => 2
  | .malformedSentinel => 3
  | .iterationExhausted => 4
  | .malformedRecord => 5
  | .sequenceError => 6
  | .illegalCommand => 7

/-- The five bytes of a response: status, v0 and v1, little-endian (R72). -/
def Response.bytes (r : Response) : List Byte := r.status.code :: (leBytes 2 r.v0.toNat ++ leBytes 2 r.v1.toNat)

/-- The bytes of the response stream so far (R40, R72). -/
def State.responseBytes (s : State) : List Byte := s.out.flatMap Response.bytes

/-- PHASE as its 3-bit register value (R25). -/
def Phase.code : Phase → BitVec 3
  | .idle => 0
  | .encoding => 1
  | .sealed => 2
  | .decoding => 3
  | .aborted => 4
  | .rejected => 5

end Sys2Proof.Machine
end

