-- ==== Sys2Proof/Machine/Instances.lean ====
section
/-! DEFINITION. Several blocks: a product of independent single blocks that share no state (10_state.md R32). -/

namespace Sys2Proof.Machine

/-- DESIGN CHOICE (assumption 14). Block `k` of a product takes one step; `none` if there is no block `k` or its run has ended. -/
def stepBlock (blocks : List State) (k : Nat) : Option (List State) :=
  match blocks[k]? with
  | none => none
  | some s =>
    match step s with
    | .next t => some (blocks.set k t)
    | .fault _ => none
    | .refused _ => none

end Sys2Proof.Machine
end

