-- ==== Sys2Proof/Machine/Run.lean ====
section
/-! DEFINITION. Sequences of commands: a list of commands run in order, and a run of a whole command stream to its end
(30_encoding.md R60, R70). -/

namespace Sys2Proof.Machine

/-- Run commands in order, without a stream to fetch them from. -/
def execAll : List Instr → State → Result
  | [], s => .next s
  | i :: is, s =>
    match exec i s with
    | .next t => execAll is t
    | .fault r => .fault r
    | .refused r => .refused r

/-- At most `n` steps: the last state reached, and the reason the run stopped if it did. -/
def runFor : Nat → State → State × Option Fault
  | 0, s => (s, none)
  | n + 1, s =>
    match step s with
    | .next t => runFor n t
    | .fault r => (s, some r)
    | .refused _ => (s, none)

/-- The run of the stream `bs` from `s` to its end (R70, decision D33): the state after the last complete command, and
how the run ended. Every command takes at least one byte, so the stream's length bounds the number of steps. -/
def runStream (s : State) (bs : List Byte) : State × Option Fault := runFor (bs.length + 1) (s.startRun bs)

end Sys2Proof.Machine
end

