-- ==== Sys2Proof/Safety.lean ====
section
/-! DEFINITION. What every run keeps (10_state.md R23, R33), which stops a run may end with, and the summaries of the
spec that range over all commands: PHASE (R26), bytes written (20_memory.md R41), statuses (60_exceptions.md R141). -/

namespace Sys2Proof.Machine

/-- What holds of the block at every command boundary. -/
structure State.BlockInv (s : State) : Prop where
  /-- BUF is in its canonical form. -/
  memWf : s.mem.wf = true
  /-- No address at or above CAPACITY is listed (R50). -/
  memWithin : s.mem.within s.cap.bytes = true
  /-- R23. -/
  eomBound : s.eom.toNat ≤ s.cap.bytes
  /-- FSTART is its reset value, or was captured by a VALIDATE whose footer fits (R24, R33). -/
  fstartBound : s.fstart = 0 ∨ recordsStart ≤ s.fstart.toNat ∧ s.fstart.toNat + footerSize ≤ s.cap.bytes
  /-- Power-on reset and RESET leave the cursor at CRC_START (R31, R93). -/
  idleCursor : s.phase = .idle → s.eom.toNat = crcStart
  /-- A started header lies before the cursor (R92, corner cases). -/
  encodingCursor : s.phase = .encoding → headerSize ≤ s.eom.toNat
  /-- A sealed frame has a header and a footer. -/
  sealedCursor : s.phase = .sealed → headerSize + footerSize ≤ s.eom.toNat
  /-- R33: `RECORDS_START <= EOM <= FSTART`; `FSTART + FOOTER_SIZE <= CAPACITY` follows with `fstartBound`. -/
  decodingCursor : s.phase = .decoding → recordsStart ≤ s.eom.toNat ∧ s.eom.toNat ≤ s.fstart.toNat

/-- What holds of the block and its channels at every command boundary: also, CP lies in the stream (R27), and every
response answers a command already passed (R72). -/
structure State.Inv (s : State) : Prop extends State.BlockInv s where
  cpBound : s.cp ≤ s.stream.length
  outBound : s.out.length ≤ s.cp

/-- The stops that end a run as R70 says. Every other one is an access no command may make. -/
def Fault.endsRun : Fault → Bool
  | .runComplete => true
  | .runIncomplete => true
  | .outsideBuf _ => false
  | .cursorBelowCrcStart => false

end Sys2Proof.Machine

namespace Sys2Proof

open Machine

/-- A command that needs a PHASE has it (R26: "needs PHASE"). -/
def Instr.allowedIn : Instr → Phase → Bool
  | .append _ _, p => p == .encoding
  | .sealMessage, p => p == .encoding
  | .next, p => p == .decoding
  | .start _ _ _ _, _ => true
  | .validate, _ => true
  | .reset, _ => true
  | .crc _ _, _ => true
  | .bwr _ _, _ => true
  | .brd _, _ => true

/-- PHASE after a command that answered a status, from PHASE before it (R26). -/
def Instr.phaseAfter : Instr → Phase → Status → Phase
  | .start _ _ _ _, _, _ => .encoding
  | .append _ _, _, .boundsExceeded => .aborted
  | .append _ _, p, _ => p
  | .sealMessage, _, .ok => .sealed
  | .sealMessage, _, .boundsExceeded => .aborted
  | .sealMessage, p, _ => p
  | .validate, _, .ok => .decoding
  | .validate, _, _ => .rejected
  | .next, p, _ => p
  | .reset, _, _ => .idle
  | .crc _ _, p, _ => p
  | .bwr _ _, p, _ => p
  | .brd _, p, _ => p

/-- The statuses a command may answer (R141). -/
def Instr.mayAnswer : Instr → List Status
  | .start _ _ _ _ => [.ok]
  | .append _ _ => [.ok, .sequenceError, .malformedRecord, .boundsExceeded]
  | .sealMessage => [.ok, .sequenceError, .boundsExceeded]
  | .validate => [.ok, .checksumMismatch, .malformedSentinel]
  | .next => [.ok, .sequenceError, .iterationExhausted, .malformedRecord]
  | .reset => [.ok]
  | .crc _ _ => [.ok, .boundsExceeded]
  | .bwr _ _ => [.ok, .boundsExceeded]
  | .brd _ => [.ok, .boundsExceeded]

/-- The addresses a command may write, from the state before it (R41, the column "writes"). -/
def Instr.mayWrite : Instr → State → Nat → Prop
  | .start _ _ _ _, _, a => a < 8
  | .append len _, s, a => s.eom.toNat ≤ a ∧ a < s.eom.toNat + len.toNat
  | .sealMessage, s, a => a = 7 ∨ s.eom.toNat ≤ a ∧ a < s.eom.toNat + 3
  | .bwr addr _, _, a => a = addr.toNat
  | .validate, _, _ => False
  | .next, _, _ => False
  | .reset, _, _ => False
  | .crc _ _, _, _ => False
  | .brd _, _, _ => False

/-- The commands that never write BUF (R163). -/
def Opcode.readsOnly : Opcode → Bool
  | .validate => true
  | .next => true
  | .reset => true
  | .crc => true
  | .brd => true
  | .start => false
  | .append => false
  | .sealMessage => false
  | .bwr => false

end Sys2Proof
end

