-- ==== Sys2Proof/Certificates/Slice0/Obligations.lean ====
section
/-! DEFINITION. The statements for the provers. Each docstring names the sentences of spec/ it formalises. -/

open Sys2Proof Sys2Proof.Machine

/-! ### Words the statements share -/

namespace Sys2Proof.Claims

/-- The bytes of BUF from `lo` on are `bs`. -/
def BufHolds (t : State) (lo : Nat) (bs : List Byte) : Prop := ∀ k, k < bs.length → bs[k]? = some (t.buf (lo + k))

/-- `t` has one response more than `s`; the rest of the host's side, and the parameter CAPACITY, are as before. -/
def Answers (s t : State) (r : Response) : Prop :=
  t.out = s.out ++ [r] ∧ t.cap = s.cap ∧ t.stream = s.stream ∧ t.cp = s.cp

/-- `s` with one response more, and nothing else changed. -/
def answered (s : State) (r : Response) : State := { s with out := s.out ++ [r] }

/-- A record operand: its length byte, and the bytes after it. -/
abbrev Record := Byte × List Byte

/-- The bytes of a record. -/
def Record.bytes (r : Record) : List Byte := r.1 :: r.2

/-- A well-formed record: L ≥ 2, and L bytes in all (20_memory.md R49). -/
def Record.Good (r : Record) : Prop := 2 ≤ r.1.toNat ∧ (Record.bytes r).length = r.1.toNat

/-- The bytes of all records, in order. -/
def recordsBytes (rs : List Record) : List Byte := rs.flatMap Record.bytes

/-- The APPENDs of all records, in order. -/
def appends (rs : List Record) : List Instr := rs.map fun r => .append r.1 r.2

/-- What APPENDs answer that start at offset `off` and all succeed (R72). -/
def appendAnswers : Nat → List Record → List Response
  | _, [] => []
  | off, r :: rs => ⟨.ok, BitVec.ofNat 16 (off + r.1.toNat), 0⟩ :: appendAnswers (off + r.1.toNat) rs

/-- What NEXTs answer that walk the records from offset `off` on (R72, R121). -/
def viewAnswers : Nat → List Record → List Response
  | _, [] => []
  | off, r :: rs => ⟨.ok, BitVec.ofNat 16 off, r.1.setWidth 16⟩ :: viewAnswers (off + r.1.toNat) rs

/-- The bits of a byte, most significant first. -/
def bitsMsbFirst (b : Byte) : List Bool :=
  [b.getLsbD 7, b.getLsbD 6, b.getLsbD 5, b.getLsbD 4, b.getLsbD 3, b.getLsbD 2, b.getLsbD 1, b.getLsbD 0]

/-- One bit into a CRC register, by the polynomial x^16 + x^12 + x^5 + 1 (R81, R86). -/
def crcBit (r : Word16) (b : Bool) : Word16 :=
  if (r.getLsbD 15).xor b then (r <<< 1) ^^^ 0x1021 else r <<< 1

end Sys2Proof.Claims

open Sys2Proof.Claims

/-! ### Encoding -/

/-- Words written out from the encodings of R68 and the examples of 95_test_vectors.md decode to their commands. -/
def Obligations.SampleWordsDecode : Prop :=
  decode [0x01, 0x04, 0x02, 0x34, 0x12, 0x56, 0x34, 0x12] = .command (.start 0x04 0x02 0x1234 0x123456) ∧
  decode [0x02, 0x04, 0x74, 0x01, 0x02] = .command (.append 0x04 [0x74, 0x01, 0x02]) ∧
  decode [0x03] = .command .sealMessage ∧
  decode [0x04] = .command .validate ∧
  decode [0x05] = .command .next ∧
  decode [0x06] = .command .reset ∧
  decode [0x07, 0x00, 0x00, 0x21, 0x00] = .command (.crc 0x0000 0x0021) ∧
  decode [0x08, 0x0F, 0x00, 0x01] = .command (.bwr 0x000F 0x01) ∧
  decode [0x09, 0x20, 0x00] = .command (.brd 0x0020) ∧
  decode [0xFF] = .reserved 0xFF ∧
  decode [0x02, 0x05, 0x10, 0x0A] = .incomplete

/-- Decode and encode agree, for every well-formed command at every operand value, whatever bytes follow it
(30_encoding.md sections 2 to 4). -/
def Obligations.DecodeUndoesEncode : Prop :=
  ∀ (i : Instr) (rest : List Byte), i.WellFormed →
    decode (encode i ++ rest) = .command i ∧ (encode i).length = i.length

/-- The other direction: a command that is read is well formed, and the bytes it was read from are its encoding, so
that each word has one meaning. -/
def Obligations.DecodedBytesAreTheEncoding : Prop :=
  ∀ (bs : List Byte) (i : Instr), decode bs = .command i →
    i.WellFormed ∧ i.length ≤ bs.length ∧ bs.take i.length = encode i

/-- R63, R65, R66, R67: operand assembly of the formats HDR, RANGE, WR and RD, and (R63) the seven operand bytes of
START are the header bytes it writes. -/
def Obligations.OperandsAssembleLittleEndian : Prop :=
  (∀ (c1 c2 c3 c4 c5 c6 c7 : Byte) (rest : List Byte), ∃ (pip : Word16) (sensor : Word24),
    decode (0x01 :: c1 :: c2 :: c3 :: c4 :: c5 :: c6 :: c7 :: rest) = .command (.start c1 c2 pip sensor) ∧
    pip.toNat = c3.toNat + 256 * c4.toNat ∧
    sensor.toNat = c5.toNat + 256 * c6.toNat + 65536 * c7.toNat ∧
    ∀ s : State, ∃ t, exec (.start c1 c2 pip sensor) s = .next t ∧ BufHolds t 0 [c1, c2, c3, c4, c5, c6, c7]) ∧
  (∀ (c1 c2 c3 c4 : Byte) (rest : List Byte), ∃ lo hi : Word16,
    decode (0x07 :: c1 :: c2 :: c3 :: c4 :: rest) = .command (.crc lo hi) ∧
    lo.toNat = c1.toNat + 256 * c2.toNat ∧ hi.toNat = c3.toNat + 256 * c4.toNat) ∧
  (∀ (c1 c2 c3 : Byte) (rest : List Byte), ∃ addr : Word16,
    decode (0x08 :: c1 :: c2 :: c3 :: rest) = .command (.bwr addr c3) ∧
    addr.toNat = c1.toNat + 256 * c2.toNat) ∧
  (∀ (c1 c2 : Byte) (rest : List Byte), ∃ addr : Word16,
    decode (0x09 :: c1 :: c2 :: rest) = .command (.brd addr) ∧
    addr.toNat = c1.toNat + 256 * c2.toNat)

/-- 30_encoding.md sections 2 and 4: an APPEND is 1 + max(L, 1) bytes long and its record operand is `c[1 .. 1+L)`
when L ≥ 2; with L < 2 it is exactly two bytes. That L = 2 gives 3 bytes is log entry 18. -/
def Obligations.AppendTakesItsRecord : Prop :=
  ∀ (len : Byte) (rest : List Byte),
    (2 ≤ len.toNat → rest.length < len.toNat - 1 → decode (0x02 :: len :: rest) = .incomplete) ∧
    (2 ≤ len.toNat → len.toNat - 1 ≤ rest.length →
      decode (0x02 :: len :: rest) = .command (.append len (rest.take (len.toNat - 1))) ∧
      len :: rest.take (len.toNat - 1) = ((0x02 :: len :: rest).take (1 + len.toNat)).drop 1) ∧
    (len.toNat < 2 → decode (0x02 :: len :: rest) = .command (.append len [])) ∧
    ∀ body, (Instr.append len body).length = 1 + max len.toNat 1

/-- The length rule of 30_encoding.md section 4: a command is complete exactly when its length does not pass the end
of the stream, and no byte sequence fails to decode. -/
def Obligations.LengthDecidesCompleteness : Prop :=
  ∀ (op : Byte) (rest : List Byte),
    (decode (op :: rest) = .incomplete ↔
      commandLength (op :: rest) = none ∨ ∃ n, commandLength (op :: rest) = some n ∧ (op :: rest).length < n) ∧
    (∀ i, decode (op :: rest) = .command i → commandLength (op :: rest) = some i.length) ∧
    (∀ o, decode (op :: rest) = .reserved o → o = op ∧ commandLength (op :: rest) = some 1) ∧
    decode (op :: rest) ≠ .finished

/-- 30_encoding.md section 4: "Every byte sequence splits uniquely into complete commands and at most one incomplete
tail." The split exists, and any split of a sequence is the one `splitStream` gives. -/
def Obligations.StreamSplitsUniquely : Prop :=
  (∀ bs : List Byte, bs = encodeStream (splitStream bs).1 ++ (splitStream bs).2 ∧
    (∀ item ∈ (splitStream bs).1, item.wf = true) ∧
    ((splitStream bs).2 = [] ∨ decode (splitStream bs).2 = .incomplete)) ∧
  ∀ (items : List StreamItem) (tail : List Byte), (∀ item ∈ items, item.wf = true) →
    tail = [] ∨ decode tail = .incomplete → splitStream (encodeStream items ++ tail) = (items, tail)

/-- R69: 0x00 and 0x0A to 0xFF are one-byte commands that change no state and answer IllegalCommand; every other
opcode, with any operand bytes at all, is a command. -/
def Obligations.ReservedOpcodeAnswersIllegalCommand : Prop :=
  (∀ (s : State) (op : Byte) (rest : List Byte), op = 0x00 ∨ 0x0A ≤ op.toNat → s.pending = op :: rest →
    step s = .next { s with cp := s.cp + 1, out := s.out ++ [⟨.illegalCommand, 0, 0⟩] }) ∧
  ∀ (op : Byte) (rest : List Byte), 0x01 ≤ op.toNat → op.toNat ≤ 0x09 → 256 ≤ (op :: rest).length →
    ∃ i, decode (op :: rest) = .command i

/-! ### Responses and statuses -/

/-- 30_encoding.md section 5: a response is five bytes (status code, v0 and v1 little-endian), no two responses have the
same bytes, the eight codes are 0 to 7 in the table's order, and PHASE has the values 0 to 5. -/
def Obligations.ResponseIsFiveBytes : Prop :=
  (∀ r : Response, r.bytes = [r.status.code, r.v0.extractLsb' 0 8, r.v0.extractLsb' 8 8, r.v1.extractLsb' 0 8,
    r.v1.extractLsb' 8 8]) ∧
  (∀ r r' : Response, r.bytes = r'.bytes → r = r') ∧
  [Status.ok, .boundsExceeded, .checksumMismatch, .malformedSentinel, .iterationExhausted, .malformedRecord,
    .sequenceError, .illegalCommand].map Status.code = [0, 1, 2, 3, 4, 5, 6, 7] ∧
  [Phase.idle, .encoding, .sealed, .decoding, .aborted, .rejected].map Phase.code = [0, 1, 2, 3, 4, 5]

/-- 30_encoding.md section 5: "Every complete command emits exactly one response, in stream order", with v0 = v1 = 0
for every status other than OK; a step that ends the run emits none (it has no next state). -/
def Obligations.EveryCommandEmitsOneResponse : Prop :=
  ∀ s t : State, step s = .next t →
    ∃ r : Response, t.out = s.out ++ [r] ∧ (r.status ≠ .ok → r.v0 = 0 ∧ r.v1 = 0)

/-- 60_exceptions.md sections 1 and 2, column "raised by": each command answers only the statuses listed for it, and
SequenceError exactly when PHASE is not the one it needs. -/
def Obligations.StatusesOfEachCommand : Prop :=
  ∀ (i : Instr) (s t : State), exec i s = .next t →
    ∃ r : Response, t.out = s.out ++ [r] ∧ r.status ∈ i.mayAnswer ∧
      (r.status = .sequenceError ↔ i.allowedIn s.phase = false)

/-! ### Steps and runs -/

/-- A step runs the command decoded at CP and then moves CP past it (R27, R60, R71): the per-command statements reach a
run through this one. -/
def Obligations.StepRunsDecodedCommand : Prop :=
  ∀ (s : State) (i : Instr), decode (s.stream.drop s.cp) = .command i →
    step s = match exec i s with
      | .next t => .next { t with cp := t.cp + i.length }
      | .fault r => .fault r
      | .refused r => .refused r

/-- 30_encoding.md section 4, end of a run: the run is Complete when no byte remains, Incomplete when the command at CP
lacks bytes, and stops in no other way from a state that keeps the invariant. -/
def Obligations.RunStopsCompleteOrIncomplete : Prop :=
  (∀ s : State, s.stream.length ≤ s.cp → step s = .fault .runComplete) ∧
  (∀ s : State, decode (s.stream.drop s.cp) = .incomplete → step s = .fault .runIncomplete) ∧
  ∀ s : State, s.Inv → ∀ r, step s = .fault r →
    r = .runComplete ∧ s.cp = s.stream.length ∨
    r = .runIncomplete ∧ s.cp < s.stream.length ∧ decode (s.stream.drop s.cp) = .incomplete

/-- 10_state.md section 4: after a command CP has moved on by its length, within the stream; no command sets CP to
anything else, or changes the stream. -/
def Obligations.CommandPointerOnlyAdvances : Prop :=
  ∀ s t : State, step s = .next t →
    t.stream = s.stream ∧ (∃ n, commandLength (s.stream.drop s.cp) = some n ∧ 1 ≤ n ∧ t.cp = s.cp + n) ∧
    t.cp ≤ t.stream.length

/-- Every run of every stream ends, with CP where 30_encoding.md section 4 says, and with one response for each complete
command of the stream. -/
def Obligations.EveryRunEnds : Prop :=
  ∀ (s : State) (bs : List Byte), s.BlockInv →
    ∃ (t : State) (r : Fault), runStream s bs = (t, some r) ∧ t.BlockInv ∧
      (r = .runComplete ∧ t.cp = bs.length ∨
        r = .runIncomplete ∧ t.cp < bs.length ∧ decode (bs.drop t.cp) = .incomplete) ∧
      t.out.length = (splitStream bs).1.length

/-- The run of the stream that encodes a list of well-formed commands is those commands run in order. -/
def Obligations.StreamRunsItsCommandsInOrder : Prop :=
  ∀ (s t : State) (is : List Instr), (∀ i ∈ is, i.WellFormed) →
    execAll is (s.startRun (is.flatMap encode)) = .next t →
    runStream s (is.flatMap encode) = ({ t with cp := (is.flatMap encode).length }, some .runComplete)

/-! ### The commands -/

/-- R90: START. From every state, in every PHASE. -/
def Obligations.StartOpensMessage : Prop :=
  ∀ (s : State) (mfr prod : Byte) (pip : Word16) (sensor : Word24),
    encode (.start mfr prod pip sensor) = [0x01, mfr, prod, pip.extractLsb' 0 8, pip.extractLsb' 8 8,
      sensor.extractLsb' 0 8, sensor.extractLsb' 8 8, sensor.extractLsb' 16 8] ∧
    ∃ t, exec (.start mfr prod pip sensor) s = .next t ∧
      BufHolds t 0 [mfr, prod, pip.extractLsb' 0 8, pip.extractLsb' 8 8,
        sensor.extractLsb' 0 8, sensor.extractLsb' 8 8, sensor.extractLsb' 16 8, 0x00] ∧
      (∀ a, 8 ≤ a → t.buf a = s.buf a) ∧
      t.eom = 8 ∧ t.phase = .encoding ∧ t.fstart = s.fstart ∧ Answers s t ⟨.ok, 8, 0⟩

/-- R91: APPEND, with its checks in their order. -/
def Obligations.AppendCopiesRecord : Prop :=
  ∀ (s : State) (len : Byte) (body : List Byte), (Instr.append len body).WellFormed →
    encode (.append len body) = 0x02 :: len :: body ∧
    (s.phase ≠ .encoding → exec (.append len body) s = .next (answered s ⟨.sequenceError, 0, 0⟩)) ∧
    (s.phase = .encoding → len.toNat < 2 →
      exec (.append len body) s = .next (answered s ⟨.malformedRecord, 0, 0⟩)) ∧
    (s.phase = .encoding → 2 ≤ len.toNat → s.cap.bytes < s.eom.toNat + len.toNat →
      exec (.append len body) s = .next { answered s ⟨.boundsExceeded, 0, 0⟩ with phase := .aborted }) ∧
    (s.phase = .encoding → 2 ≤ len.toNat → s.eom.toNat + len.toNat ≤ s.cap.bytes →
      ∃ t, exec (.append len body) s = .next t ∧ BufHolds t s.eom.toNat (len :: body) ∧
        (∀ a, a < s.eom.toNat ∨ s.eom.toNat + len.toNat ≤ a → t.buf a = s.buf a) ∧
        t.eom.toNat = s.eom.toNat + len.toNat ∧ t.phase = .encoding ∧ t.fstart = s.fstart ∧
        Answers s t ⟨.ok, t.eom, 0⟩)

/-- R92: SEAL. The premise of its last clause, EOM ≥ 8, holds in ENCODING by the invariant. The crc is that of the bytes
in BUF after header_length is written. -/
def Obligations.SealClosesFrame : Prop :=
  encode .sealMessage = [0x03] ∧
  ∀ s : State,
    (s.phase ≠ .encoding → exec .sealMessage s = .next (answered s ⟨.sequenceError, 0, 0⟩)) ∧
    (s.phase = .encoding → s.cap.bytes < s.eom.toNat + 3 →
      exec .sealMessage s = .next { answered s ⟨.boundsExceeded, 0, 0⟩ with phase := .aborted }) ∧
    (s.phase = .encoding → 8 ≤ s.eom.toNat → s.eom.toNat + 3 ≤ s.cap.bytes →
      ∃ (t : State) (c : Word16), exec .sealMessage s = .next t ∧
        (t.buf 7).toNat = s.eom.toNat - 5 ∧ 3 ≤ (t.buf 7).toNat ∧
        c = crc16 (t.bufRange 5 (s.eom.toNat - 5)) ∧
        BufHolds t s.eom.toNat [0x00, c.extractLsb' 0 8, c.extractLsb' 8 8] ∧
        (∀ a, a ≠ 7 → a < s.eom.toNat ∨ s.eom.toNat + 3 ≤ a → t.buf a = s.buf a) ∧
        t.eom.toNat = s.eom.toNat + 3 ∧ t.phase = .sealed ∧ t.fstart = s.fstart ∧
        Answers s t ⟨.ok, t.eom, c⟩)

/-- R93: RESET. BUF and FSTART stay. After it APPEND, SEAL and NEXT give SequenceError, until a START or a VALIDATE
that answers OK. -/
def Obligations.ResetRewindsCursor : Prop :=
  encode .reset = [0x06] ∧
  (∀ s : State, exec .reset s = .next { answered s ⟨.ok, 5, 0⟩ with eom := 5, phase := .idle }) ∧
  ∀ (is : List Instr) (s t : State), execAll (.reset :: is) s = .next t →
    ((∀ i ∈ is, i.opcode ≠ .start) →
      exec .sealMessage t = .next (answered t ⟨.sequenceError, 0, 0⟩) ∧
      ∀ len body, exec (.append len body) t = .next (answered t ⟨.sequenceError, 0, 0⟩)) ∧
    ((∀ i ∈ is, i ≠ .validate) → exec .next t = .next (answered t ⟨.sequenceError, 0, 0⟩))

/-- R94: BWR. -/
def Obligations.BwrWritesOneByte : Prop :=
  ∀ (s : State) (addr : Word16) (data : Byte),
    encode (.bwr addr data) = [0x08, addr.extractLsb' 0 8, addr.extractLsb' 8 8, data] ∧
    (s.cap.bytes ≤ addr.toNat → exec (.bwr addr data) s = .next (answered s ⟨.boundsExceeded, 0, 0⟩)) ∧
    (addr.toNat < s.cap.bytes →
      ∃ t, exec (.bwr addr data) s = .next t ∧ t.buf addr.toNat = data ∧
        (∀ a, a ≠ addr.toNat → t.buf a = s.buf a) ∧
        t.eom = s.eom ∧ t.phase = s.phase ∧ t.fstart = s.fstart ∧ Answers s t ⟨.ok, 0, 0⟩)

/-- R95: BRD. The byte is zero-extended; nothing but the response changes. -/
def Obligations.BrdReadsOneByte : Prop :=
  ∀ (s : State) (addr : Word16),
    encode (.brd addr) = [0x09, addr.extractLsb' 0 8, addr.extractLsb' 8 8] ∧
    (s.cap.bytes ≤ addr.toNat → exec (.brd addr) s = .next (answered s ⟨.boundsExceeded, 0, 0⟩)) ∧
    (addr.toNat < s.cap.bytes →
      exec (.brd addr) s = .next (answered s ⟨.ok, BitVec.ofNat 16 (s.buf addr.toNat).toNat, 0⟩))

/-- R83: CRC. Nothing but the response changes; the empty range gives 0x0000. -/
def Obligations.CrcAnswersChecksumOfRange : Prop :=
  ∀ (s : State) (lo hi : Word16),
    encode (.crc lo hi) = [0x07, lo.extractLsb' 0 8, lo.extractLsb' 8 8, hi.extractLsb' 0 8, hi.extractLsb' 8 8] ∧
    (hi.toNat < lo.toNat ∨ s.cap.bytes < hi.toNat →
      exec (.crc lo hi) s = .next (answered s ⟨.boundsExceeded, 0, 0⟩)) ∧
    (lo.toNat ≤ hi.toNat → hi.toNat ≤ s.cap.bytes →
      (∃ bs : List Byte, bs.length = hi.toNat - lo.toNat ∧ BufHolds s lo.toNat bs ∧
        exec (.crc lo hi) s = .next (answered s ⟨.ok, crc16 bs, 0⟩)) ∧
      (lo = hi → exec (.crc lo hi) s = .next (answered s ⟨.ok, 0x0000, 0⟩)))

/-- R120: VALIDATE. In every PHASE; the checks in their order; BUF is never written. -/
def Obligations.ValidateChecksFrame : Prop :=
  encode .validate = [0x04] ∧
  ∀ (s : State) (hl f stored : Nat), hl = (s.buf 7).toNat → f = 5 + hl →
    stored = (s.buf (f + 1)).toNat + 256 * (s.buf (f + 2)).toNat →
    (hl < 3 ∨ s.cap.bytes < f + 3 →
      exec .validate s = .next { answered s ⟨.checksumMismatch, 0, 0⟩ with phase := .rejected }) ∧
    (3 ≤ hl → f + 3 ≤ s.cap.bytes → ∃ covered : List Byte, covered.length = f - 5 ∧ BufHolds s 5 covered ∧
      ((crc16 covered).toNat ≠ stored →
        exec .validate s = .next { answered s ⟨.checksumMismatch, 0, 0⟩ with phase := .rejected }) ∧
      ((crc16 covered).toNat = stored → s.buf f ≠ 0x00 →
        exec .validate s = .next { answered s ⟨.malformedSentinel, 0, 0⟩ with phase := .rejected }) ∧
      ((crc16 covered).toNat = stored → s.buf f = 0x00 →
        exec .validate s = .next { answered s ⟨.ok, BitVec.ofNat 16 f, 0⟩ with
          eom := 8, fstart := BitVec.ofNat 16 f, phase := .decoding }))

/-- R121: NEXT. The premise EOM < CAPACITY of its last two clauses holds in DECODING by the invariant, unless EOM is
FSTART. BUF is never written; only an OK moves EOM. -/
def Obligations.NextWalksRecords : Prop :=
  encode .next = [0x05] ∧
  ∀ (s : State) (len : Nat), len = (s.buf s.eom.toNat).toNat →
    (s.phase ≠ .decoding → exec .next s = .next (answered s ⟨.sequenceError, 0, 0⟩)) ∧
    (s.phase = .decoding → s.eom = s.fstart →
      exec .next s = .next (answered s ⟨.iterationExhausted, 0, 0⟩)) ∧
    (s.phase = .decoding → s.eom ≠ s.fstart → s.eom.toNat < s.cap.bytes →
      len < 2 ∨ s.fstart.toNat < s.eom.toNat + len →
      exec .next s = .next (answered s ⟨.malformedRecord, 0, 0⟩)) ∧
    (s.phase = .decoding → s.eom ≠ s.fstart → s.eom.toNat < s.cap.bytes → 2 ≤ len →
      s.eom.toNat + len ≤ s.fstart.toNat →
      exec .next s = .next { answered s ⟨.ok, s.eom, BitVec.ofNat 16 len⟩ with
        eom := BitVec.ofNat 16 (s.eom.toNat + len) })

/-! ### Rules over all commands -/

/-- Every step keeps the invariant (R23 and R33 among it), from every state that has it. -/
def Obligations.StepKeepsInvariant : Prop :=
  ∀ s t : State, s.Inv → step s = .next t → t.Inv ∧ t.cap = s.cap

/-- The invariant holds right after power-on, of every capacity and for every BUF contents in canonical form; of the
reset state among them. -/
def Obligations.PowerOnMeetsInvariant : Prop :=
  (∀ (cap : Capacity) (draw : Memory), draw.wf = true → draw.within cap.bytes = true →
    (State.powerOn cap draw).Inv) ∧
  State.reset.Inv

/-- 10_state.md section 6 and 70_reset_and_hazards.md section 1: the values after power-on reset, whatever BUF comes up
as; and what the RESET command sets and leaves. BUF can come up with any byte values: every assignment of bytes to its
addresses is one of the draws. That no byte of the stream is pending is the model's choice, log entry 11. -/
def Obligations.PowerOnResetValues : Prop :=
  (∀ (s : State) (draw : Memory),
    (s.powerOnReset draw).eom = 5 ∧ (s.powerOnReset draw).fstart = 0 ∧ (s.powerOnReset draw).phase = .idle ∧
    (s.powerOnReset draw).cap = s.cap ∧ (s.powerOnReset draw).pending = [] ∧
    ∀ a, (s.powerOnReset draw).buf a = draw.read a) ∧
  (∀ (s : State) (f : Nat → Byte), ∃ draw : Memory, draw.wf = true ∧ draw.within s.cap.bytes = true ∧
    ∀ a, a < s.cap.bytes → (s.powerOnReset draw).buf a = f a) ∧
  ∀ s : State, ∃ t, exec .reset s = .next t ∧ t.eom = 5 ∧ t.phase = .idle ∧ t.fstart = s.fstart ∧
    ∀ a, t.buf a = s.buf a

/-- Two BUF contents in canonical form that read alike at every address are the same data. -/
def Obligations.CanonicalBuffersReadingAlikeAreEqual : Prop :=
  ∀ m m' : Memory, m.wf = true → m'.wf = true → (∀ a, m.read a = m'.read a) → m = m'

/-- 20_memory.md section 4, "no command ever reads or writes BUF at an address >= CAPACITY": from a state that keeps the
block's invariant every command, whatever its operands, answers a next state, so no access that leaves BUF is made; and
a step stops only as the end of a run. -/
def Obligations.NoCommandLeavesBuffer : Prop :=
  (∀ (i : Instr) (s : State), s.BlockInv → ∃ t, exec i s = .next t) ∧
  ∀ s : State, s.Inv → (∃ t, step s = .next t) ∨ ∃ r, step s = .fault r ∧ r.endsRun = true

/-- The table "PHASE by command" of 10_state.md section 3. -/
def Obligations.PhaseByCommand : Prop :=
  ∀ (i : Instr) (s t : State), exec i s = .next t →
    ∃ r : Response, t.out = s.out ++ [r] ∧ t.phase = i.phaseAfter s.phase r.status

/-- R24: "Only a VALIDATE that succeeds writes it, with CRC_START + header_length", and reports it. -/
def Obligations.OnlyValidateWritesFstart : Prop :=
  ∀ (i : Instr) (s t : State), exec i s = .next t →
    (i ≠ .validate → t.fstart = s.fstart) ∧
    (i = .validate → t.phase = .decoding →
      t.fstart.toNat = 5 + (s.buf 7).toNat ∧ t.out = s.out ++ [⟨.ok, t.fstart, 0⟩]) ∧
    (i = .validate → t.phase ≠ .decoding → t.fstart = s.fstart)

/-- 20_memory.md section 1, column "writes": a byte outside the ones listed for the command reads as before, whether
the command succeeds or fails. -/
def Obligations.OnlyListedBytesAreWritten : Prop :=
  ∀ (i : Instr) (s t : State), exec i s = .next t → ∀ a, ¬ i.mayWrite s a → t.buf a = s.buf a

/-- 60_exceptions.md section 1: a command that fails leaves no effect, or exactly the PHASE change its rule names:
ABORTED by a BoundsExceeded of APPEND or SEAL, REJECTED by VALIDATE. -/
def Obligations.FailureChangesAtMostPhase : Prop :=
  ∀ (i : Instr) (s t : State) (r : Response), exec i s = .next t → t.out = s.out ++ [r] → r.status ≠ .ok →
    t = { s with out := s.out ++ [⟨r.status, 0, 0⟩], phase := t.phase } ∧
    (t.phase = s.phase ∨
      t.phase = .aborted ∧ (i.opcode = .append ∨ i.opcode = .sealMessage) ∧ r.status = .boundsExceeded ∨
      t.phase = .rejected ∧ i = .validate)

/-- R142: only a BoundsExceeded from APPEND or SEAL moves PHASE to ABORTED; after it APPEND and SEAL give SequenceError
until the next START, whatever other commands run; every other failure leaves a message in progress as it was. -/
def Obligations.AbortedUntilNextStart : Prop :=
  (∀ (i : Instr) (s t : State), exec i s = .next t → t.phase = .aborted → s.phase ≠ .aborted →
    (i.opcode = .append ∨ i.opcode = .sealMessage) ∧ t.out = s.out ++ [⟨.boundsExceeded, 0, 0⟩]) ∧
  (∀ (is : List Instr) (s t : State), s.phase = .aborted → (∀ i ∈ is, i.opcode ≠ .start) →
    execAll is s = .next t →
    exec .sealMessage t = .next (answered t ⟨.sequenceError, 0, 0⟩) ∧
    ∀ len body, exec (.append len body) t = .next (answered t ⟨.sequenceError, 0, 0⟩)) ∧
  ∀ (i : Instr) (s t : State) (r : Response), s.phase = .encoding → i ≠ .validate → exec i s = .next t →
    t.out = s.out ++ [r] → r.status ≠ .ok →
    ¬ ((i.opcode = .append ∨ i.opcode = .sealMessage) ∧ r.status = .boundsExceeded) → t = answered s r

/-- 60_exceptions.md section 1, after a failed VALIDATE: "NEXT gives SequenceError until a VALIDATE succeeds". If NEXT
answers anything else after commands that began outside DECODING, one of them was a VALIDATE that answered OK. -/
def Obligations.NextRefusedUntilValidateSucceeds : Prop :=
  ∀ (is : List Instr) (s t : State), s.phase ≠ .decoding → execAll is s = .next t →
    exec .next t = .next (answered t ⟨.sequenceError, 0, 0⟩) ∨
    ∃ (before after : List Instr) (u v : State), is = before ++ .validate :: after ∧
      execAll before s = .next u ∧ exec .validate u = .next v ∧ v.out = u.out ++ [⟨.ok, v.fstart, 0⟩]

/-- 70_reset_and_hazards.md section 3, lifetime of a record view: VALIDATE, NEXT, RESET, CRC and BRD, in any number and
order, leave every byte of BUF as it was. -/
def Obligations.ViewSurvivesReadingCommands : Prop :=
  ∀ (is : List Instr) (s t : State), (∀ i ∈ is, i.opcode.readsOnly = true) → execAll is s = .next t →
    ∀ a, t.buf a = s.buf a

/-- 70_reset_and_hazards.md section 1: no command can tell power-on reset from RESET except through BUF. Outside
DECODING the value of FSTART has no influence on any later response, stop, register but FSTART, or byte of BUF. -/
def Obligations.FstartIsInvisibleOutsideDecoding : Prop :=
  ∀ (n : Nat) (s : State) (v : Word16), s.phase ≠ .decoding →
    (runFor n { s with fstart := v }).2 = (runFor n s).2 ∧
    (runFor n { s with fstart := v }).1.out = (runFor n s).1.out ∧
    (runFor n { s with fstart := v }).1.eom = (runFor n s).1.eom ∧
    (runFor n { s with fstart := v }).1.phase = (runFor n s).1.phase ∧
    (runFor n { s with fstart := v }).1.mem = (runFor n s).1.mem ∧
    ((runFor n s).1.phase = .decoding → (runFor n { s with fstart := v }).1.fstart = (runFor n s).1.fstart)

/-- 41_framer.md section 4: the value in EOM "is read by no command before START or VALIDATE overwrites it". Outside
ENCODING and DECODING the value of EOM has no influence on any later response, stop, register but EOM, or byte of BUF. -/
def Obligations.EomIsInvisibleOutsideEncodingAndDecoding : Prop :=
  ∀ (n : Nat) (s : State) (v : Word16), s.phase ≠ .encoding → s.phase ≠ .decoding →
    (runFor n { s with eom := v }).2 = (runFor n s).2 ∧
    (runFor n { s with eom := v }).1.out = (runFor n s).1.out ∧
    (runFor n { s with eom := v }).1.fstart = (runFor n s).1.fstart ∧
    (runFor n { s with eom := v }).1.phase = (runFor n s).1.phase ∧
    (runFor n { s with eom := v }).1.mem = (runFor n s).1.mem ∧
    ((runFor n s).1.phase = .encoding ∨ (runFor n s).1.phase = .decoding →
      (runFor n { s with eom := v }).1.eom = (runFor n s).1.eom)

/-- 10_state.md section 7: blocks share no state. A step of one leaves the others as they are, and steps of two
different blocks may be taken in either order. -/
def Obligations.BlocksAreIndependent : Prop :=
  (∀ (blocks blocks' : List State) (k : Nat), stepBlock blocks k = some blocks' →
    blocks'.length = blocks.length ∧ (∀ j, j ≠ k → blocks'[j]? = blocks[j]?) ∧
    ∃ s t, blocks[k]? = some s ∧ step s = .next t ∧ blocks'[k]? = some t) ∧
  ∀ (blocks : List State) (j k : Nat), j ≠ k →
    (stepBlock blocks j).bind (fun b => stepBlock b k) = (stepBlock blocks k).bind fun b => stepBlock b j

/-! ### The checksum -/

/-- R81: poly 0x1021, init 0, bits enter most significant first, output not reflected, no final XOR: crc16 is the
bit-by-bit division of the bit sequence. -/
def Obligations.ChecksumTakesBitsMostSignificantFirst : Prop :=
  ∀ seq : List Byte, crc16 seq = (seq.flatMap bitsMsbFirst).foldl crcBit 0x0000

/-- 40_crc.md section 3: leading zero bytes leave crc16 as it is, and the empty sequence has crc16 0x0000. -/
def Obligations.ChecksumIgnoresLeadingZeros : Prop :=
  crc16 [] = 0x0000 ∧ ∀ (k : Nat) (seq : List Byte), crc16 (List.replicate k 0x00 ++ seq) = crc16 seq

/-- 40_crc.md section 3: linearity. -/
def Obligations.ChecksumIsLinear : Prop :=
  ∀ a b : List Byte, a.length = b.length → crc16 (List.zipWith (· ^^^ ·) a b) = crc16 a ^^^ crc16 b

/-- 40_crc.md section 3: flipping any single bit of a sequence changes crc16; so does every other change of one byte. -/
def Obligations.ChecksumDetectsChangeOfOneByte : Prop :=
  (∀ (before after : List Byte) (b b' : Byte), b ≠ b' → crc16 (before ++ b :: after) ≠ crc16 (before ++ b' :: after)) ∧
  ∀ (before after : List Byte) (b : Byte) (k : Nat), k < 8 →
    crc16 (before ++ (b ^^^ BitVec.ofNat 8 (2 ^ k)) :: after) ≠ crc16 (before ++ b :: after)

/-! ### Whole messages -/

/-- 41_framer.md section 6, record boundaries: START, APPENDs that fit, SEAL leave the frame in BUF whose records are
the appended ones, byte for byte and in order. -/
def Obligations.SealedFrameHoldsItsRecords : Prop :=
  ∀ (s : State) (mfr prod : Byte) (pip : Word16) (sensor : Word24) (rs : List Record),
    (∀ r ∈ rs, Record.Good r) → 8 + (recordsBytes rs).length + 3 ≤ s.cap.bytes →
    ∃ (t : State) (c : Word16), execAll (.start mfr prod pip sensor :: appends rs ++ [.sealMessage]) s = .next t ∧
      BufHolds t 8 (recordsBytes rs) ∧
      (t.buf 7).toNat = (recordsBytes rs).length + 3 ∧
      BufHolds t 0 [mfr, prod, pip.extractLsb' 0 8, pip.extractLsb' 8 8,
        sensor.extractLsb' 0 8, sensor.extractLsb' 8 8, sensor.extractLsb' 16 8] ∧
      c = crc16 (t.bufRange 5 (3 + (recordsBytes rs).length)) ∧
      BufHolds t (8 + (recordsBytes rs).length) [0x00, c.extractLsb' 0 8, c.extractLsb' 8 8] ∧
      (∀ a, 8 + (recordsBytes rs).length + 3 ≤ a → t.buf a = s.buf a) ∧
      t.eom.toNat = 8 + (recordsBytes rs).length + 3 ∧ t.phase = .sealed ∧ t.fstart = s.fstart ∧
      t.out = s.out ++ ⟨.ok, 8, 0⟩ :: appendAnswers 8 rs ++ [⟨.ok, t.eom, c⟩]

/-- 42_iterator.md section 3, round trip: START, APPENDs, SEAL, VALIDATE and n + 1 NEXTs give the appended records back
as views of BUF, byte for byte and in order, and then IterationExhausted. -/
def Obligations.RoundTripYieldsTheRecords : Prop :=
  ∀ (s : State) (mfr prod : Byte) (pip : Word16) (sensor : Word24) (rs : List Record),
    (∀ r ∈ rs, Record.Good r) → 8 + (recordsBytes rs).length + 3 ≤ s.cap.bytes →
    ∃ (t : State) (c : Word16),
      execAll (.start mfr prod pip sensor :: appends rs ++ [.sealMessage, .validate] ++
        List.replicate (rs.length + 1) .next) s = .next t ∧
      t.out = s.out ++ ⟨.ok, 8, 0⟩ :: appendAnswers 8 rs ++
        [⟨.ok, BitVec.ofNat 16 (8 + (recordsBytes rs).length + 3), c⟩,
          ⟨.ok, BitVec.ofNat 16 (8 + (recordsBytes rs).length), 0⟩] ++
        viewAnswers 8 rs ++ [⟨.iterationExhausted, 0, 0⟩] ∧
      BufHolds t 8 (recordsBytes rs)

/-- 41_framer.md section 6 and 42_iterator.md section 3, the empty message: START then SEAL give an 11-byte frame that
validates, and the first NEXT gives IterationExhausted. -/
def Obligations.EmptyMessageValidates : Prop :=
  ∀ (s : State) (mfr prod : Byte) (pip : Word16) (sensor : Word24) (c : Word16),
    c = crc16 [sensor.extractLsb' 8 8, sensor.extractLsb' 16 8, 0x03] →
    ∃ t, execAll [.start mfr prod pip sensor, .sealMessage, .validate, .next] s = .next t ∧
      t.out = s.out ++ [⟨.ok, 8, 0⟩, ⟨.ok, 11, c⟩, ⟨.ok, 8, 0⟩, ⟨.iterationExhausted, 0, 0⟩] ∧
      t.eom = 8 ∧ t.fstart = 8 ∧ t.phase = .decoding ∧ (t.buf 7).toNat = 3

/-- 41_framer.md section 6, idempotent reset: RESET and then an encode sequence on a used BUF gives the responses and
the frame bytes that the same sequence gives on a fresh one, whatever either BUF held. -/
def Obligations.EncodingAfterResetEqualsFreshEncoding : Prop :=
  ∀ (s : State) (draw : Memory) (mfr prod : Byte) (pip : Word16) (sensor : Word24) (rs : List Record),
    (∀ r ∈ rs, (Instr.append r.1 r.2).WellFormed) →
    ∃ (t t' : State) (answers : List Response),
      execAll (.reset :: .start mfr prod pip sensor :: appends rs ++ [.sealMessage]) s = .next t ∧
      execAll (.start mfr prod pip sensor :: appends rs ++ [.sealMessage]) (State.powerOn s.cap draw) = .next t' ∧
      t.out = s.out ++ ⟨.ok, 5, 0⟩ :: answers ∧ t'.out = answers ∧
      t.phase = t'.phase ∧ t.eom = t'.eom ∧ ∀ a, a < t.eom.toNat → t.buf a = t'.buf a

/-- 42_iterator.md section 3, sensitivity and sentinel: from a frame that validates, a change of one covered byte other
than header_length, or of a crc byte, gives ChecksumMismatch, and a non-zero eod gives MalformedSentinel. -/
def Obligations.ValidateDetectsChangedByte : Prop :=
  ∀ (s t u : State) (f a : Nat), exec .validate s = .next u → u.phase = .decoding → f = 5 + (s.buf 7).toNat →
    t.cap = s.cap → t.buf a ≠ s.buf a → (∀ b, b ≠ a → t.buf b = s.buf b) →
    (a = 5 ∨ a = 6 ∨ 8 ≤ a ∧ a < f ∨ a = f + 1 ∨ a = f + 2 →
      exec .validate t = .next { answered t ⟨.checksumMismatch, 0, 0⟩ with phase := .rejected }) ∧
    (a = f → exec .validate t = .next { answered t ⟨.malformedSentinel, 0, 0⟩ with phase := .rejected })

/-- 42_iterator.md section 3, iteration terminates: NEXTs give some OKs, at most (FSTART - EOM) / 2 of them, and from
then on always the same IterationExhausted or MalformedRecord. -/
def Obligations.IterationEnds : Prop :=
  ∀ (s : State) (n : Nat), s.BlockInv → s.phase = .decoding →
    ∃ (t : State) (oks : List Response) (last : Response),
      execAll (List.replicate n .next) s = .next t ∧ oks.length ≤ n ∧
      t.out = s.out ++ oks ++ List.replicate (n - oks.length) last ∧
      (∀ r ∈ oks, r.status = .ok) ∧ (last.status = .iterationExhausted ∨ last.status = .malformedRecord) ∧
      oks.length ≤ (s.fstart.toNat - s.eom.toNat) / 2

/-! ### The assembly language -/

/-- 30_encoding.md section 6: the line that writes a well-formed command assembles to its encoding. -/
def Obligations.AssemblerAgreesWithEncoder : Prop :=
  ∀ i : Instr, i.WellFormed → (AsmLine.core (AsmCore.ofInstr i)).assemble = some (encode i)

/-- 30_encoding.md section 6: "The assembler refuses an operand that does not fit its field", and an append list that
does not have exactly max(L, 1) bytes. -/
def Obligations.AssemblerRefusesUnfitOperands : Prop :=
  (∀ mfr prod pip sensor : Nat, ((AsmCore.start mfr prod pip sensor).assemble = none ↔
    256 ≤ mfr ∨ 256 ≤ prod ∨ 65536 ≤ pip ∨ 16777216 ≤ sensor)) ∧
  (∀ bs : List Nat, ((AsmCore.append bs).assemble = none ↔
    (∃ b ∈ bs, 256 ≤ b) ∨ bs.length ≠ max (bs.headD 0) 1)) ∧
  (∀ lo hi : Nat, ((AsmCore.crc lo hi).assemble = none ↔ 65536 ≤ lo ∨ 65536 ≤ hi)) ∧
  (∀ addr data : Nat, ((AsmCore.bwr addr data).assemble = none ↔ 65536 ≤ addr ∨ 256 ≤ data)) ∧
  (∀ addr : Nat, ((AsmCore.brd addr).assemble = none ↔ 65536 ≤ addr)) ∧
  ∀ b : Nat, ((AsmCore.byte b).assemble = none ↔ 256 ≤ b)

/-- R76: the expansions of the pseudo-instructions. -/
def Obligations.PseudoInstructionsExpand : Prop :=
  (∀ (tag : Nat) (p : List Nat), p.length ≤ 253 →
    (AsmLine.record tag p).expand = some [.append ((p.length + 2) :: tag :: p)]) ∧
  (∀ (tag : Nat) (p : List Nat), 253 < p.length → (AsmLine.record tag p).expand = none) ∧
  (∀ (addr : Nat) (d : List Nat), (AsmLine.wrbuf addr d).expand =
    some (d.zipIdx.map fun x => .bwr (addr + x.2) x.1)) ∧
  (∀ addr n : Nat, (AsmLine.rdbuf addr n).expand = some ((List.range n).map fun k => .brd (addr + k))) ∧
  (∀ start n : Nat, (AsmLine.crcbuf start n).expand = some [.crc start (start + n)])
end

