-- ==== Sys2Proof/Laws/Bytes.lean ====
section
/-! SUPPORT. Little-endian bytes, and the bytes of the operand forms. -/

namespace Sys2Proof

@[simp] theorem leBytes_length (n v : Nat) : (leBytes n v).length = n := by
  induction n generalizing v with
  | zero => rfl
  | succ n ih => simp [leBytes, ih]

/-- Reading the bytes that were written gives the value, cut to their number. -/
theorem leValue_leBytes (n v : Nat) : leValue (leBytes n v) = v % 256 ^ n := by
  induction n generalizing v with
  | zero => simp [leBytes, leValue, Nat.mod_one]
  | succ n ih =>
    have hb : (BitVec.ofNat 8 v).toNat = v % 256 := by simp
    rw [leBytes, leValue, ih, hb, Nat.pow_succ, Nat.mul_comm (256 ^ n), Nat.mod_mul]

theorem leValue_lt (bs : List Byte) : leValue bs < 256 ^ bs.length := by
  induction bs with
  | nil => simp [leValue]
  | cons b bs ih =>
    have hb : b.toNat < 256 := b.isLt
    simp only [leValue, List.length_cons, Nat.pow_succ]
    omega

/-- Writing the value of a byte sequence gives the sequence. -/
theorem leBytes_leValue (bs : List Byte) : leBytes bs.length (leValue bs) = bs := by
  induction bs with
  | nil => rfl
  | cons b bs ih =>
    have hb : b.toNat < 256 := b.isLt
    have h1 : (b.toNat + 256 * leValue bs) / 256 = leValue bs := by omega
    have h2 : BitVec.ofNat 8 (b.toNat + 256 * leValue bs) = b := by
      apply BitVec.eq_of_toNat_eq
      simp only [BitVec.toNat_ofNat]
      omega
    simp only [List.length_cons, leBytes, leValue, h1, h2, ih]

/-- The two bytes of a 16-bit value. -/
theorem leBytes_two (v : Word16) : leBytes 2 v.toNat = [v.extractLsb' 0 8, v.extractLsb' 8 8] := by
  simp only [leBytes, List.cons.injEq, and_true]
  constructor <;> apply BitVec.eq_of_toNat_eq <;> simp [Nat.shiftRight_eq_div_pow]

/-- The three bytes of a 24-bit value. -/
theorem leBytes_three (v : Word24) :
    leBytes 3 v.toNat = [v.extractLsb' 0 8, v.extractLsb' 8 8, v.extractLsb' 16 8] := by
  simp only [leBytes, List.cons.injEq, and_true]
  refine ⟨?_, ?_, ?_⟩ <;> apply BitVec.eq_of_toNat_eq <;> simp [Nat.shiftRight_eq_div_pow, Nat.div_div_eq_div_mul]

namespace Machine

@[simp] theorem headerBytes_length (mfr prod : Byte) (pip : Word16) (sensor : Word24) :
    (headerBytes mfr prod pip sensor).length = 8 := by simp [headerBytes]

@[simp] theorem footerBytes_length (c : Word16) : (footerBytes c).length = 3 := by simp [footerBytes]

theorem recordBytes_length_le (len : Byte) (body : List Byte) : (recordBytes len body).length ≤ len.toNat := by
  simp only [recordBytes, List.length_take]
  omega

/-- The record operand of a well-formed APPEND with L ≥ 1 is its length byte and every byte after it. -/
theorem recordBytes_wf {len : Byte} {body : List Byte} (hw : (Instr.append len body).WellFormed)
    (h : 1 ≤ len.toNat) : recordBytes len body = len :: body := by
  simp only [Instr.WellFormed, Instr.wf, beq_iff_eq] at hw
  rw [recordBytes, List.take_of_length_le]
  simp only [List.length_cons]
  omega

/-! ### The checksum, byte by byte -/

/-- Feeding one sequence after another. -/
theorem crc16_append (a b : List Byte) : crc16 (a ++ b) = b.foldl crcByte (crc16 a) := by
  simp [crc16, crcXorOut]

@[simp] theorem crc16_nil : crc16 [] = 0 := by decide

end Machine

end Sys2Proof
end

