-- ==== Sys2Proof/Laws/State.lean ====
section
/-! SUPPORT. One lemma per field per update of State. -/

namespace Sys2Proof.Machine

section Fields

variable (s : State) (v : Nat) (p : Phase) (r : Response) (bs : List Byte)

@[simp] theorem setEom_cap : (s.setEom v).cap = s.cap := rfl
@[simp] theorem setEom_mem : (s.setEom v).mem = s.mem := rfl
@[simp] theorem setEom_eom : (s.setEom v).eom = BitVec.ofNat 16 v := rfl
@[simp] theorem setEom_fstart : (s.setEom v).fstart = s.fstart := rfl
@[simp] theorem setEom_phase : (s.setEom v).phase = s.phase := rfl
@[simp] theorem setEom_stream : (s.setEom v).stream = s.stream := rfl
@[simp] theorem setEom_cp : (s.setEom v).cp = s.cp := rfl
@[simp] theorem setEom_out : (s.setEom v).out = s.out := rfl

@[simp] theorem setFstart_cap : (s.setFstart v).cap = s.cap := rfl
@[simp] theorem setFstart_mem : (s.setFstart v).mem = s.mem := rfl
@[simp] theorem setFstart_eom : (s.setFstart v).eom = s.eom := rfl
@[simp] theorem setFstart_fstart : (s.setFstart v).fstart = BitVec.ofNat 16 v := rfl
@[simp] theorem setFstart_phase : (s.setFstart v).phase = s.phase := rfl
@[simp] theorem setFstart_stream : (s.setFstart v).stream = s.stream := rfl
@[simp] theorem setFstart_cp : (s.setFstart v).cp = s.cp := rfl
@[simp] theorem setFstart_out : (s.setFstart v).out = s.out := rfl

@[simp] theorem setPhase_cap : (s.setPhase p).cap = s.cap := rfl
@[simp] theorem setPhase_mem : (s.setPhase p).mem = s.mem := rfl
@[simp] theorem setPhase_eom : (s.setPhase p).eom = s.eom := rfl
@[simp] theorem setPhase_fstart : (s.setPhase p).fstart = s.fstart := rfl
@[simp] theorem setPhase_phase : (s.setPhase p).phase = p := rfl
@[simp] theorem setPhase_stream : (s.setPhase p).stream = s.stream := rfl
@[simp] theorem setPhase_cp : (s.setPhase p).cp = s.cp := rfl
@[simp] theorem setPhase_out : (s.setPhase p).out = s.out := rfl

@[simp] theorem emit_cap : (s.emit r).cap = s.cap := rfl
@[simp] theorem emit_mem : (s.emit r).mem = s.mem := rfl
@[simp] theorem emit_eom : (s.emit r).eom = s.eom := rfl
@[simp] theorem emit_fstart : (s.emit r).fstart = s.fstart := rfl
@[simp] theorem emit_phase : (s.emit r).phase = s.phase := rfl
@[simp] theorem emit_stream : (s.emit r).stream = s.stream := rfl
@[simp] theorem emit_cp : (s.emit r).cp = s.cp := rfl
@[simp] theorem emit_out : (s.emit r).out = s.out ++ [r] := rfl

@[simp] theorem startRun_cap : (s.startRun bs).cap = s.cap := rfl
@[simp] theorem startRun_mem : (s.startRun bs).mem = s.mem := rfl
@[simp] theorem startRun_eom : (s.startRun bs).eom = s.eom := rfl
@[simp] theorem startRun_fstart : (s.startRun bs).fstart = s.fstart := rfl
@[simp] theorem startRun_phase : (s.startRun bs).phase = s.phase := rfl
@[simp] theorem startRun_stream : (s.startRun bs).stream = bs := rfl
@[simp] theorem startRun_cp : (s.startRun bs).cp = 0 := rfl
@[simp] theorem startRun_out : (s.startRun bs).out = [] := rfl

@[simp] theorem setEom_buf (a : Nat) : (s.setEom v).buf a = s.buf a := rfl
@[simp] theorem setFstart_buf (a : Nat) : (s.setFstart v).buf a = s.buf a := rfl
@[simp] theorem setPhase_buf (a : Nat) : (s.setPhase p).buf a = s.buf a := rfl
@[simp] theorem emit_buf (a : Nat) : (s.emit r).buf a = s.buf a := rfl
@[simp] theorem startRun_buf (a : Nat) : (s.startRun bs).buf a = s.buf a := rfl

end Fields

end Sys2Proof.Machine
end

