-- ==== Sys2Proof/Laws/Memory.lean ====
section
/-! SUPPORT. The laws of BUF's cells: a read after a write, and the canonical form that every operation keeps. -/

namespace Sys2Proof.Machine

/-! ### Reads and writes -/

@[simp] theorem read_nil (a : Nat) : Memory.read [] a = unlistedByte := rfl

theorem read_erase (m : Memory) (a b : Nat) : (m.erase a).read b = if b = a then unlistedByte else m.read b := by
  induction m with
  | nil => simp [Memory.erase]
  | cons c m ih =>
    obtain ⟨x, v⟩ := c
    by_cases hax : a = x
    · subst hax
      by_cases hba : b = a
      · rw [if_pos hba] at ih ⊢
        simpa [Memory.erase] using ih
      · simpa [Memory.erase, Memory.read, hba] using ih
    · by_cases hbx : b = x
      · subst hbx
        simp [Memory.erase, Memory.read, hax, Ne.symm hax]
      · simp [Memory.erase, Memory.read, hax, hbx, ih]

theorem read_insertCell_ne (m : Memory) {a b : Nat} (v : Byte) (h : b ≠ a) :
    (m.insertCell a v).read b = m.read b := by
  induction m with
  | nil => simp [Memory.insertCell, Memory.read, h]
  | cons c m ih =>
    obtain ⟨x, w⟩ := c
    by_cases hax : a < x
    · simp [Memory.insertCell, Memory.read, hax, h]
    · simp [Memory.insertCell, Memory.read, hax, ih]

theorem read_insertCell_erase (m : Memory) (a : Nat) (v : Byte) : ((m.erase a).insertCell a v).read a = v := by
  induction m with
  | nil => simp [Memory.erase, Memory.insertCell, Memory.read]
  | cons c m ih =>
    obtain ⟨x, w⟩ := c
    by_cases hax : a = x
    · simpa [Memory.erase, hax] using hax ▸ ih
    · by_cases hlt : a < x
      · simp [Memory.erase, Memory.insertCell, Memory.read, hax, hlt]
      · simp [Memory.erase, Memory.insertCell, Memory.read, hax, hlt, ih]

/-- A read after a write: the written address gives the value written, every other one what it gave before. -/
theorem read_write (m : Memory) (a b : Nat) (v : Byte) : (m.write a v).read b = if b = a then v else m.read b := by
  unfold Memory.write
  by_cases hv : v = unlistedByte
  · simp [hv, read_erase]
  · by_cases hb : b = a
    · subst hb
      simp [hv, read_insertCell_erase]
    · simp [hv, hb, read_insertCell_ne, read_erase]

/-- A read after the write of a byte sequence. -/
theorem read_writeRange (bs : List Byte) : ∀ (m : Memory) (lo b : Nat),
    (m.writeRange lo bs).read b = if lo ≤ b ∧ b < lo + bs.length then bs.getD (b - lo) 0 else m.read b := by
  induction bs with
  | nil => intro m lo b; simp [Memory.writeRange]
  | cons v bs ih =>
    intro m lo b
    simp only [Memory.writeRange, ih, read_write, List.length_cons]
    by_cases h1 : b = lo
    · subst h1
      simp
    · by_cases h2 : lo + 1 ≤ b ∧ b < lo + 1 + bs.length
      · have h3 : lo ≤ b ∧ b < lo + (bs.length + 1) := by omega
        obtain ⟨k, rfl⟩ : ∃ k, b = lo + 1 + k := ⟨b - (lo + 1), by omega⟩
        have hk : lo + 1 + k - lo = k + 1 := by omega
        simp [h2, h3, hk]
      · have h3 : ¬ (lo ≤ b ∧ b < lo + (bs.length + 1)) := by omega
        rw [if_neg h2, if_neg h1, if_neg h3]

theorem read_writeRange_outside (m : Memory) {lo b : Nat} (bs : List Byte) (h : b < lo ∨ lo + bs.length ≤ b) :
    (m.writeRange lo bs).read b = m.read b := by
  rw [read_writeRange, if_neg (by omega)]

theorem read_writeRange_inside (m : Memory) (lo : Nat) (bs : List Byte) {k : Nat} (h : k < bs.length) :
    bs[k]? = some ((m.writeRange lo bs).read (lo + k)) := by
  rw [read_writeRange, if_pos (by omega)]
  simp [h]

@[simp] theorem readRange_length (m : Memory) (lo n : Nat) : (m.readRange lo n).length = n := by
  induction n generalizing lo with
  | zero => rfl
  | succ n ih => simp [Memory.readRange, ih]

theorem readRange_getElem? (m : Memory) (lo n k : Nat) :
    (m.readRange lo n)[k]? = if k < n then some (m.read (lo + k)) else none := by
  induction n generalizing lo k with
  | zero => simp [Memory.readRange]
  | succ n ih =>
    cases k with
    | zero => simp [Memory.readRange]
    | succ k => simp [Memory.readRange, ih, Nat.add_assoc, Nat.add_comm 1]

/-- A byte sequence that BUF holds is what a range read gives. -/
theorem readRange_eq_of_getElem? {m : Memory} {lo n : Nat} {bs : List Byte} (hn : bs.length = n)
    (h : ∀ k, k < bs.length → bs[k]? = some (m.read (lo + k))) : m.readRange lo n = bs := by
  apply List.ext_getElem?
  intro k
  rw [readRange_getElem?]
  by_cases hk : k < n
  · rw [if_pos hk, h k (by omega)]
  · rw [if_neg hk, List.getElem?_eq_none (by omega)]

theorem readRange_congr {m m' : Memory} {lo n : Nat} (h : ∀ k, k < n → m.read (lo + k) = m'.read (lo + k)) :
    m.readRange lo n = m'.readRange lo n := by
  apply List.ext_getElem?
  intro k
  simp only [readRange_getElem?]
  split
  · rw [h k ‹_›]
  · rfl

/-! ### The canonical form -/

theorem wfFrom_mono {lo lo' : Nat} (h : lo' ≤ lo) : ∀ {m : Memory}, m.wfFrom lo = true → m.wfFrom lo' = true
  | [], _ => rfl
  | (b, v) :: m, hm => by
    simp only [Memory.wfFrom, Bool.and_eq_true, decide_eq_true_eq] at hm ⊢
    exact ⟨⟨by omega, hm.1.2⟩, hm.2⟩

theorem wfFrom_erase {m : Memory} : ∀ {lo : Nat} (a : Nat), m.wfFrom lo = true → (m.erase a).wfFrom lo = true := by
  induction m with
  | nil => intros; rfl
  | cons c m ih =>
    intro lo a h
    obtain ⟨b, v⟩ := c
    simp only [Memory.wfFrom, Bool.and_eq_true, decide_eq_true_eq] at h
    by_cases hab : a = b
    · simpa [Memory.erase, hab] using ih b (wfFrom_mono (by omega) h.2)
    · simp only [Memory.erase, hab, if_false, Memory.wfFrom, Bool.and_eq_true, decide_eq_true_eq]
      exact ⟨h.1, ih a h.2⟩

theorem wfFrom_insertCell {m : Memory} : ∀ {lo a : Nat} {v : Byte}, m.wfFrom lo = true → lo ≤ a →
    v ≠ unlistedByte → ((m.erase a).insertCell a v).wfFrom lo = true := by
  induction m with
  | nil =>
    intro lo a v _ ha hv
    simp [Memory.erase, Memory.insertCell, Memory.wfFrom, ha, hv]
  | cons c m ih =>
    intro lo a v h ha hv
    obtain ⟨b, w⟩ := c
    simp only [Memory.wfFrom, Bool.and_eq_true, decide_eq_true_eq] at h
    by_cases hab : a = b
    · simpa [Memory.erase, hab] using ih (a := b) (wfFrom_mono (by omega) h.2) (by omega) hv
    · by_cases hlt : a < b
      · simp only [Memory.erase, hab, if_false, Memory.insertCell, hlt, if_true, Memory.wfFrom,
          Bool.and_eq_true, decide_eq_true_eq]
        exact ⟨⟨ha, hv⟩, ⟨by omega, h.1.2⟩, wfFrom_erase a h.2⟩
      · simp only [Memory.erase, hab, if_false, Memory.insertCell, hlt, Memory.wfFrom,
          Bool.and_eq_true, decide_eq_true_eq]
        exact ⟨h.1, ih h.2 (by omega) hv⟩

/-- A write keeps the canonical form. -/
theorem wf_write {m : Memory} (a : Nat) (v : Byte) (h : m.wf = true) : (m.write a v).wf = true := by
  unfold Memory.write
  split
  · exact wfFrom_erase a h
  · exact wfFrom_insertCell h (Nat.zero_le a) ‹_›

/-- The write of a byte sequence keeps the canonical form. -/
theorem wf_writeRange (bs : List Byte) : ∀ {m : Memory} (lo : Nat), m.wf = true → (m.writeRange lo bs).wf = true := by
  induction bs with
  | nil => intro m lo h; exact h
  | cons b bs ih => intro m lo h; exact ih (lo + 1) (wf_write lo b h)

theorem within_erase {n : Nat} (m : Memory) (a : Nat) (h : m.within n = true) : (m.erase a).within n = true := by
  induction m with
  | nil => rfl
  | cons c m ih =>
    simp only [Memory.within, List.all_cons, Bool.and_eq_true] at h
    by_cases hc : a = c.1
    · simpa [Memory.erase, hc] using hc ▸ ih h.2
    · simp only [Memory.erase, hc, if_false, Memory.within, List.all_cons, Bool.and_eq_true]
      exact ⟨h.1, ih h.2⟩

theorem within_insertCell {n : Nat} (m : Memory) {a : Nat} (v : Byte) (ha : a < n) (h : m.within n = true) :
    (m.insertCell a v).within n = true := by
  induction m with
  | nil => simp [Memory.insertCell, Memory.within, ha]
  | cons c m ih =>
    have h' := h
    simp only [Memory.within, List.all_cons, Bool.and_eq_true] at h'
    by_cases hc : a < c.1
    · simp only [Memory.insertCell, hc, if_true, Memory.within, List.all_cons, Bool.and_eq_true]
      exact ⟨by simpa using ha, h'⟩
    · simp only [Memory.insertCell, hc, if_false, Memory.within, List.all_cons, Bool.and_eq_true]
      exact ⟨h'.1, ih h'.2⟩

/-- A write below `n` keeps every listed address below `n`. -/
theorem within_write {n : Nat} (m : Memory) {a : Nat} (v : Byte) (ha : a < n) (h : m.within n = true) :
    (m.write a v).within n = true := by
  unfold Memory.write
  split
  · exact within_erase m a h
  · exact within_insertCell _ v ha (within_erase m a h)

theorem within_writeRange {n : Nat} (bs : List Byte) : ∀ (m : Memory) (lo : Nat), lo + bs.length ≤ n →
    m.within n = true → (m.writeRange lo bs).within n = true := by
  induction bs with
  | nil => intro m lo _ h; exact h
  | cons b bs ih =>
    intro m lo hlo h
    simp only [List.length_cons] at hlo
    exact ih _ (lo + 1) (by omega) (within_write m b (by omega) h)

theorem wfFrom_ofFun (f : Nat → Byte) : ∀ lo n, (Memory.ofFun f lo n).wfFrom lo = true
  | _, 0 => rfl
  | lo, n + 1 => by
    unfold Memory.ofFun
    split
    · exact wfFrom_mono (Nat.le_succ lo) (wfFrom_ofFun f (lo + 1) n)
    · simp [Memory.wfFrom, *, wfFrom_ofFun f (lo + 1) n]

/-- The reset state's BUF is in canonical form. -/
theorem reset_mem_wf : State.reset.mem.wf = true := rfl

end Sys2Proof.Machine
end

