-- ==== Sys2Proof/Laws/Ops.lean ====
section
/-! SUPPORT. What each shared operation can do, said once: the accesses of BUF, the end of a command, the advance of
CP. Later proofs cite these and do not unfold the operations. -/

namespace Sys2Proof.Machine

section Ops

variable {s t : State} {lo n a : Nat} {bs : List Byte}

theorem loadRange_eq {k : List Byte → Result} (h : lo + n ≤ s.cap.bytes) :
    s.loadRange lo n k = k (s.bufRange lo n) := if_pos h

theorem loadByte_eq {k : Byte → Result} (h : a < s.cap.bytes) : s.loadByte a k = k (s.buf a) := if_pos h

theorem storeRange_eq {k : State → Result} (h : lo + bs.length ≤ s.cap.bytes) :
    s.storeRange lo bs k = k { s with mem := s.mem.writeRange lo bs } := if_pos h

/-- A range read that goes on to a next state lay inside BUF. -/
theorem loadRange_next {k : List Byte → Result} (h : s.loadRange lo n k = .next t) :
    lo + n ≤ s.cap.bytes ∧ k (s.bufRange lo n) = .next t := by
  unfold State.loadRange at h
  split at h
  · exact ⟨‹_›, h⟩
  · cases h

/-- A byte read that goes on to a next state lay inside BUF. -/
theorem loadByte_next {k : Byte → Result} (h : s.loadByte a k = .next t) :
    a < s.cap.bytes ∧ k (s.buf a) = .next t := by
  unfold State.loadByte at h
  split at h
  · exact ⟨‹_›, h⟩
  · cases h

/-- A write that goes on to a next state lay inside BUF, and changed BUF alone. -/
theorem storeRange_next {k : State → Result} (h : s.storeRange lo bs k = .next t) :
    lo + bs.length ≤ s.cap.bytes ∧ k { s with mem := s.mem.writeRange lo bs } = .next t := by
  unfold State.storeRange at h
  split at h
  · exact ⟨‹_›, h⟩
  · cases h

/-- `respond` always answers the state with one response more. -/
theorem respond_next {st : Status} {v0 v1 : Word16} : s.respond st v0 v1 = .next t ↔ t = s.emit ⟨st, v0, v1⟩ := by
  unfold State.respond
  constructor
  · intro h; cases h; rfl
  · intro h; rw [h]

theorem raise_next {st : Status} : s.raise st = .next t ↔ t = s.emit ⟨st, 0, 0⟩ := respond_next

/-- A result that has advanced CP came from one that had not. -/
theorem advance_next {len : Nat} {r : Result} (h : advance len r = .next t) :
    ∃ u, r = .next u ∧ t = { u with cp := u.cp + len } := by
  cases r with
  | next u => exact ⟨u, rfl, by simpa [advance] using h.symm⟩
  | fault r => cases h
  | refused r => cases h

theorem bufRange_getElem? (k : Nat) : (s.bufRange lo n)[k]? = if k < n then some (s.buf (lo + k)) else none :=
  readRange_getElem? s.mem lo n k

@[simp] theorem bufRange_length : (s.bufRange lo n).length = n := readRange_length s.mem lo n

end Ops

end Sys2Proof.Machine
end

