-- ==== Sys2Proof/Laws/Commands.lean ====
section
/-! SUPPORT. What each command can do, said once: where its checks lie, and the state it answers. -/

namespace Sys2Proof.Machine

/-- R90: START has one outcome. -/
theorem execStart_eq (mfr prod : Byte) (pip : Word16) (sensor : Word24) (s : State) :
    execStart mfr prod pip sensor s =
      .next (((({ s with mem := s.mem.writeRange 0 (headerBytes mfr prod pip sensor) }).setEom 8).setPhase
        .encoding).emit ⟨.ok, 8, 0⟩) := by
  unfold execStart
  rw [storeRange_eq (by have := s.cap.least; simp; omega)]
  rfl

/-- The state after an APPEND that answers OK. -/
def appended (len : Byte) (body : List Byte) (s : State) : State :=
  (({ s with mem := s.mem.writeRange s.eom.toNat (recordBytes len body) }).setEom
    (s.eom.toNat + len.toNat)).emit ⟨.ok, BitVec.ofNat 16 (s.eom.toNat + len.toNat), 0⟩

/-- R91: the four outcomes of APPEND. -/
theorem execAppend_inv {len : Byte} {body : List Byte} {s t : State} (h : execAppend len body s = .next t) :
    (s.phase ≠ .encoding ∧ t = s.emit ⟨.sequenceError, 0, 0⟩) ∨
    (s.phase = .encoding ∧ len.toNat < 2 ∧ t = s.emit ⟨.malformedRecord, 0, 0⟩) ∨
    (s.phase = .encoding ∧ 2 ≤ len.toNat ∧ s.cap.bytes < s.eom.toNat + len.toNat ∧
      t = (s.setPhase .aborted).emit ⟨.boundsExceeded, 0, 0⟩) ∨
    (s.phase = .encoding ∧ 2 ≤ len.toNat ∧ s.eom.toNat + len.toNat ≤ s.cap.bytes ∧
      t = appended len body s) := by
  unfold execAppend at h
  split at h
  · exact .inl ⟨‹_›, raise_next.1 h⟩
  · rename_i h1
    have h1 : s.phase = .encoding := by simpa using h1
    split at h
    · exact .inr (.inl ⟨h1, by simpa using ‹len.toNat < descSize›, raise_next.1 h⟩)
    · rename_i h2
      simp at h2
      split at h
      · exact .inr (.inr (.inl ⟨h1, h2, by omega, raise_next.1 h⟩))
      · obtain ⟨_, h⟩ := storeRange_next h
        exact .inr (.inr (.inr ⟨h1, h2, by omega, respond_next.1 h⟩))

/-- When APPEND answers OK. -/
theorem execAppend_ok {len : Byte} {body : List Byte} {s : State} (h1 : s.phase = .encoding) (h2 : 2 ≤ len.toNat)
    (h3 : s.eom.toNat + len.toNat ≤ s.cap.bytes) : execAppend len body s = .next (appended len body s) := by
  unfold execAppend
  have := recordBytes_length_le len body
  rw [if_neg (by simpa using h1), if_neg (by simp; omega), if_neg (by omega), storeRange_eq (by omega)]
  rfl

/-- An APPEND always answers a next state: its check of the bound comes before its write. -/
theorem execAppend_total (len : Byte) (body : List Byte) (s : State) : ∃ t, execAppend len body s = .next t := by
  have := recordBytes_length_le len body
  unfold execAppend
  split
  · exact ⟨_, rfl⟩
  split
  · exact ⟨_, rfl⟩
  split
  · exact ⟨_, rfl⟩
  · rw [storeRange_eq (by omega)]; exact ⟨_, rfl⟩

/-- The state after a SEAL that answers OK. -/
def sealed (s : State) : State :=
  let m1 := s.mem.writeRange 7 [BitVec.ofNat 8 (s.eom.toNat - 5)]
  let c := crc16 (m1.readRange 5 (s.eom.toNat - 5))
  (((({ s with mem := m1.writeRange s.eom.toNat (footerBytes c) }).setEom (s.eom.toNat + 3)).setPhase .sealed)).emit
    ⟨.ok, BitVec.ofNat 16 (s.eom.toNat + 3), c⟩

/-- R92: the three outcomes of SEAL. -/
theorem execSeal_inv {s t : State} (h : execSeal s = .next t) :
    (s.phase ≠ .encoding ∧ t = s.emit ⟨.sequenceError, 0, 0⟩) ∨
    (s.phase = .encoding ∧ s.cap.bytes < s.eom.toNat + 3 ∧
      t = (s.setPhase .aborted).emit ⟨.boundsExceeded, 0, 0⟩) ∨
    (s.phase = .encoding ∧ s.eom.toNat + 3 ≤ s.cap.bytes ∧ 5 ≤ s.eom.toNat ∧ t = sealed s) := by
  unfold execSeal at h
  split at h
  · exact .inl ⟨‹_›, raise_next.1 h⟩
  · rename_i h1
    have h1 : s.phase = .encoding := by simpa using h1
    split at h
    · rename_i h2
      simp at h2
      exact .inr (.inl ⟨h1, h2, raise_next.1 h⟩)
    · rename_i h2
      simp at h2
      unfold State.sealLength at h
      split at h
      · rename_i h3
        simp at h3
        obtain ⟨_, h⟩ := storeRange_next h
        obtain ⟨_, h⟩ := loadRange_next h
        obtain ⟨_, h⟩ := storeRange_next h
        exact .inr (.inr ⟨h1, h2, h3, respond_next.1 h⟩)
      · cases h

/-- When SEAL answers OK. -/
theorem execSeal_ok {s : State} (h1 : s.phase = .encoding) (h2 : s.eom.toNat + 3 ≤ s.cap.bytes)
    (h3 : 5 ≤ s.eom.toNat) : execSeal s = .next (sealed s) := by
  unfold execSeal State.sealLength
  have := s.cap.least
  rw [if_neg (by simpa using h1), if_neg (by simp; omega), if_pos (by simpa using h3)]
  simp only []
  rw [storeRange_eq (by simp; omega), loadRange_eq (by simp; omega), storeRange_eq (by simp; omega)]
  rfl

/-- R120: VALIDATE, its BUF accesses resolved. -/
theorem execValidate_eq (s : State) : execValidate s =
    let hl := (s.buf 7).toNat
    if hl < 3 ∨ s.cap.bytes < 5 + hl + 3 then .next ((s.setPhase .rejected).emit ⟨.checksumMismatch, 0, 0⟩)
    else if (crc16 (s.bufRange 5 hl)).toNat ≠ (s.buf (5 + hl + 1)).toNat + 256 * (s.buf (5 + hl + 2)).toNat then
      .next ((s.setPhase .rejected).emit ⟨.checksumMismatch, 0, 0⟩)
    else if s.buf (5 + hl) ≠ 0 then .next ((s.setPhase .rejected).emit ⟨.malformedSentinel, 0, 0⟩)
    else .next ((((s.setEom 8).setFstart (5 + hl)).setPhase .decoding).emit ⟨.ok, BitVec.ofNat 16 (5 + hl), 0⟩) := by
  have := s.cap.least
  unfold execValidate
  rw [loadByte_eq (by simp; omega)]
  simp only [crcStart, headerTail, footerSize, hlOffset, recordsStart, gt_iff_lt]
  split
  · rfl
  · rename_i h
    simp only [not_or, not_lt] at h
    rw [loadRange_eq (by omega), loadRange_eq (by omega), loadByte_eq (by omega)]
    have e : 5 + (s.buf 7).toNat - 5 = (s.buf 7).toNat := by omega
    rw [e]
    simp only [State.bufRange, Memory.readRange, leValue, State.buf, State.reject, State.raise, State.respond]
    simp only [Nat.mul_zero, Nat.add_zero]
    rfl

/-- R121: the four outcomes of NEXT. -/
theorem execNext_inv {s t : State} (h : execNext s = .next t) :
    (s.phase ≠ .decoding ∧ t = s.emit ⟨.sequenceError, 0, 0⟩) ∨
    (s.phase = .decoding ∧ s.eom = s.fstart ∧ t = s.emit ⟨.iterationExhausted, 0, 0⟩) ∨
    (s.phase = .decoding ∧ s.eom ≠ s.fstart ∧ s.eom.toNat < s.cap.bytes ∧
      ((s.buf s.eom.toNat).toNat < 2 ∨ s.fstart.toNat < s.eom.toNat + (s.buf s.eom.toNat).toNat) ∧
      t = s.emit ⟨.malformedRecord, 0, 0⟩) ∨
    (s.phase = .decoding ∧ s.eom ≠ s.fstart ∧ s.eom.toNat < s.cap.bytes ∧ 2 ≤ (s.buf s.eom.toNat).toNat ∧
      s.eom.toNat + (s.buf s.eom.toNat).toNat ≤ s.fstart.toNat ∧
      t = (s.setEom (s.eom.toNat + (s.buf s.eom.toNat).toNat)).emit
        ⟨.ok, s.eom, (s.buf s.eom.toNat).setWidth 16⟩) := by
  unfold execNext at h
  split at h
  · exact .inl ⟨‹_›, raise_next.1 h⟩
  · rename_i h1
    have h1 : s.phase = .decoding := by simpa using h1
    split at h
    · exact .inr (.inl ⟨h1, ‹_›, raise_next.1 h⟩)
    · rename_i h2
      obtain ⟨h3, h⟩ := loadByte_next h
      split at h
      · rename_i h4
        exact .inr (.inr (.inl ⟨h1, h2, h3, by simpa using h4, raise_next.1 h⟩))
      · rename_i h4
        simp at h4
        exact .inr (.inr (.inr ⟨h1, h2, h3, h4.1, h4.2, respond_next.1 h⟩))

/-- NEXT, its BUF access resolved. -/
theorem execNext_eq {s : State} (h : s.eom.toNat < s.cap.bytes) : execNext s =
    if s.phase ≠ .decoding then .next (s.emit ⟨.sequenceError, 0, 0⟩)
    else if s.eom = s.fstart then .next (s.emit ⟨.iterationExhausted, 0, 0⟩)
    else if (s.buf s.eom.toNat).toNat < 2 ∨ s.fstart.toNat < s.eom.toNat + (s.buf s.eom.toNat).toNat then
      .next (s.emit ⟨.malformedRecord, 0, 0⟩)
    else .next ((s.setEom (s.eom.toNat + (s.buf s.eom.toNat).toNat)).emit
      ⟨.ok, s.eom, (s.buf s.eom.toNat).setWidth 16⟩) := by
  unfold execNext
  rw [loadByte_eq h]
  rfl

/-- R83: CRC, its BUF access resolved. -/
theorem execCrc_eq (lo hi : Word16) (s : State) : execCrc lo hi s =
    if hi.toNat < lo.toNat ∨ s.cap.bytes < hi.toNat then .next (s.emit ⟨.boundsExceeded, 0, 0⟩)
    else .next (s.emit ⟨.ok, crc16 (s.bufRange lo.toNat (hi.toNat - lo.toNat)), 0⟩) := by
  unfold execCrc
  split
  · rfl
  · rename_i h
    rw [loadRange_eq (by omega)]; rfl

/-- R94: BWR, its BUF access resolved. -/
theorem execBwr_eq (addr : Word16) (d : Byte) (s : State) : execBwr addr d s =
    if s.cap.bytes ≤ addr.toNat then .next (s.emit ⟨.boundsExceeded, 0, 0⟩)
    else .next (({ s with mem := s.mem.write addr.toNat d }).emit ⟨.ok, 0, 0⟩) := by
  unfold execBwr
  split
  · rfl
  · rename_i h
    rw [storeRange_eq (by simp; omega)]; rfl

/-- R95: BRD, its BUF access resolved. -/
theorem execBrd_eq (addr : Word16) (s : State) : execBrd addr s =
    if s.cap.bytes ≤ addr.toNat then .next (s.emit ⟨.boundsExceeded, 0, 0⟩)
    else .next (s.emit ⟨.ok, (s.buf addr.toNat).setWidth 16, 0⟩) := by
  unfold execBrd
  split
  · rfl
  · rename_i h
    rw [loadByte_eq (by omega)]; rfl

/-- R93: RESET has one outcome. -/
theorem execReset_eq (s : State) : execReset s = .next (((s.setEom 5).setPhase .idle).emit ⟨.ok, 5, 0⟩) := rfl

end Sys2Proof.Machine
end

