-- ==== Sys2Proof/Laws/PerInstr.lean ====
section
/-! SUPPORT. Statements about every command as syntax, one lemma per constructor. -/

namespace Sys2Proof.Laws.EncodedLength

/-- A well-formed command's encoding has the command's length, between 1 byte and the longest (R62, R64). -/
def Statement (i : Instr) : Prop :=
  i.WellFormed → (encode i).length = i.length ∧ 1 ≤ i.length ∧ i.length ≤ longestCommand

theorem start (mfr prod : Byte) (pip : Word16) (sensor : Word24) : Statement (.start mfr prod pip sensor) := by
  intro _
  simp [encode, encodeOperands, Instr.length, longestCommand]

theorem append (len : Byte) (body : List Byte) : Statement (.append len body) := by
  intro hw
  have hl : len.toNat < 256 := len.isLt
  simp only [Instr.WellFormed, Instr.wf, beq_iff_eq] at hw
  simp only [encode, encodeOperands, Instr.length, longestCommand, List.length_cons]
  omega

theorem sealMessage : Statement .sealMessage := by
  intro _
  simp [encode, encodeOperands, Instr.length, longestCommand]

theorem validate : Statement .validate := by
  intro _
  simp [encode, encodeOperands, Instr.length, longestCommand]

theorem next : Statement .next := by
  intro _
  simp [encode, encodeOperands, Instr.length, longestCommand]

theorem reset : Statement .reset := by
  intro _
  simp [encode, encodeOperands, Instr.length, longestCommand]

theorem crc (lo hi : Word16) : Statement (.crc lo hi) := by
  intro _
  simp [encode, encodeOperands, Instr.length, longestCommand]

theorem bwr (addr : Word16) (data : Byte) : Statement (.bwr addr data) := by
  intro _
  simp [encode, encodeOperands, Instr.length, longestCommand]

theorem brd (addr : Word16) : Statement (.brd addr) := by
  intro _
  simp [encode, encodeOperands, Instr.length, longestCommand]

end Sys2Proof.Laws.EncodedLength

namespace Sys2Proof.Laws.OpcodeReadsBack

/-- The opcode byte of a command selects that command (R68). -/
def Statement (i : Instr) : Prop := Opcode.ofByte? i.opcode.byte = some i.opcode

theorem start (mfr prod : Byte) (pip : Word16) (sensor : Word24) : Statement (.start mfr prod pip sensor) := rfl
theorem append (len : Byte) (body : List Byte) : Statement (.append len body) := rfl
theorem sealMessage : Statement .sealMessage := rfl
theorem validate : Statement .validate := rfl
theorem next : Statement .next := rfl
theorem reset : Statement .reset := rfl
theorem crc (lo hi : Word16) : Statement (.crc lo hi) := rfl
theorem bwr (addr : Word16) (data : Byte) : Statement (.bwr addr data) := rfl
theorem brd (addr : Word16) : Statement (.brd addr) := rfl

end Sys2Proof.Laws.OpcodeReadsBack
end

