-- ==== Sys2Proof/Laws/Decode.lean ====
section
/-! SUPPORT. The decoder's parts: the bytes a record operand takes, 16-bit and 24-bit operands, the opcode map. -/

namespace Sys2Proof

theorem takeExactly_eq (n : Nat) (bs : List Byte) :
    takeExactly n bs = if n ≤ bs.length then some (bs.take n) else none := by
  induction n generalizing bs with
  | zero => simp [takeExactly]
  | succ n ih =>
    cases bs with
    | nil => simp [takeExactly]
    | cons b bs =>
      simp only [takeExactly, ih, List.length_cons, Nat.add_le_add_iff_right, List.take_succ_cons]
      split <;> rfl

/-- A 16-bit operand is read back from its two bytes. -/
theorem ofNat_leValue_two (v : Word16) {a b : Byte} (h : leBytes 2 v.toNat = [a, b]) :
    BitVec.ofNat 16 (leValue [a, b]) = v := by
  rw [← h, leValue_leBytes]
  apply BitVec.eq_of_toNat_eq
  have := v.isLt
  simp
  omega

/-- A 24-bit operand is read back from its three bytes. -/
theorem ofNat_leValue_three (v : Word24) {a b c : Byte} (h : leBytes 3 v.toNat = [a, b, c]) :
    BitVec.ofNat 24 (leValue [a, b, c]) = v := by
  rw [← h, leValue_leBytes]
  apply BitVec.eq_of_toNat_eq
  have := v.isLt
  simp
  omega

/-- The two bytes of a 16-bit operand are written back from its value. -/
theorem leBytes_ofNat_two (a b : Byte) : leBytes 2 (BitVec.ofNat 16 (leValue [a, b])).toNat = [a, b] := by
  have h1 := leBytes_leValue [a, b]
  have h2 := leValue_lt [a, b]
  rw [BitVec.toNat_ofNat, Nat.mod_eq_of_lt (by simpa using h2)]
  exact h1

/-- The three bytes of a 24-bit operand are written back from its value. -/
theorem leBytes_ofNat_three (a b c : Byte) :
    leBytes 3 (BitVec.ofNat 24 (leValue [a, b, c])).toNat = [a, b, c] := by
  have h1 := leBytes_leValue [a, b, c]
  have h2 := leValue_lt [a, b, c]
  rw [BitVec.toNat_ofNat, Nat.mod_eq_of_lt (by simpa using h2)]
  exact h1

@[simp] theorem ofByte_byte (o : Opcode) : Opcode.ofByte? o.byte = some o := by cases o <;> decide

theorem byte_of_ofByte {op : Byte} {o : Opcode} (h : Opcode.ofByte? op = some o) : o.byte = op := by
  unfold Opcode.ofByte? at h
  split at h <;> cases h <;> (rename_i hh; apply BitVec.eq_of_toNat_eq; rw [hh]; rfl)

/-- The reserved opcode bytes (R69). -/
theorem ofByte_none_iff {op : Byte} : Opcode.ofByte? op = none ↔ op = 0x00 ∨ 0x0A ≤ op.toNat := by
  revert op; decide

/-- What decoding gives after an opcode byte of the map. -/
theorem decode_opcode (o : Opcode) (rest : List Byte) : decode (o.byte :: rest) =
    match decodeOperands o rest with
    | some i => .command i
    | none => .incomplete := by
  cases h : decodeOperands o rest <;> simp [decode, h]

end Sys2Proof
end

