-- ==== Sys2Proof/Laws/Step.lean ====
section
/-! SUPPORT. What a step can do, and how runs of commands compose. -/

namespace Sys2Proof.Machine

/-- A step that goes on ran the command at CP, or answered a reserved opcode. -/
theorem step_next_cases {s t : State} (h : step s = .next t) :
    (∃ i u, decode s.pending = .command i ∧ exec i s = .next u ∧ t = { u with cp := u.cp + i.length }) ∨
    (∃ op, decode s.pending = .reserved op ∧ t = { s.emit ⟨.illegalCommand, 0, 0⟩ with cp := s.cp + 1 }) := by
  unfold step at h
  split at h
  · obtain ⟨u, hu, rfl⟩ := advance_next h
    exact .inl ⟨_, u, ‹_›, hu, rfl⟩
  · obtain ⟨u, hu, rfl⟩ := advance_next h
    cases hu
    exact .inr ⟨_, ‹_›, rfl⟩
  · cases h
  · cases h

@[simp] theorem execAll_nil (s : State) : execAll [] s = .next s := rfl

theorem execAll_cons {i : Instr} {is : List Instr} {s t : State} : execAll (i :: is) s = .next t ↔
    ∃ u, exec i s = .next u ∧ execAll is u = .next t := by
  simp only [execAll]
  cases h : exec i s <;> simp

theorem execAll_append {is js : List Instr} {s t : State} : execAll (is ++ js) s = .next t ↔
    ∃ u, execAll is s = .next u ∧ execAll js u = .next t := by
  induction is generalizing s with
  | nil => simp [execAll]
  | cons i is ih =>
    simp only [List.cons_append, execAll_cons, ih]
    constructor
    · rintro ⟨u, h, v, h1, h2⟩; exact ⟨v, ⟨u, h, h1⟩, h2⟩
    · rintro ⟨v, ⟨u, h, h1⟩, h2⟩; exact ⟨u, h, v, h1, h2⟩

end Sys2Proof.Machine
end

