-- ==== Sys2Proof/Tests/Slice0.lean ====
section
/-! SUPPORT. Tests of single commands on small states, with expected values from 95_test_vectors.md, and for every
statement with hypotheses the states and operands that meet them. -/

namespace Sys2Proof.Tests

open Sys2Proof Sys2Proof.Machine Sys2Proof.Claims

/-! ### Small states -/

def cap11 : Capacity := ⟨11, by decide, by decide⟩
def cap16 : Capacity := ⟨16, by decide, by decide⟩
def cap18 : Capacity := ⟨18, by decide, by decide⟩
def cap32 : Capacity := ⟨32, by decide, by decide⟩

/-- A block with the first bytes of BUF as listed. -/
def block (cap : Capacity) (bytes : List Byte) (eom fstart : Word16) (phase : Phase) : State :=
  { State.powerOn cap (Memory.writeRange [] 0 bytes) with eom := eom, fstart := fstart, phase := phase }

/-- The frame of P1. -/
def p1Frame : List Byte :=
  [0x04, 0x02, 0x34, 0x12, 0x56, 0x34, 0x12, 0x0A, 0x04, 0x74, 0x01, 0x02, 0x03, 0x76, 0x09, 0x00, 0x0F, 0xAB]

/-- The frame of P6. -/
def p6Frame : List Byte := [0xAA, 0xBB, 0xCD, 0xAB, 0x01, 0x02, 0x03, 0x03, 0x00, 0x50, 0x0B]

/-- The P1 frame received in a block it just fits. -/
def received : State := block cap18 p1Frame 5 0 .idle

/-- A block with a message in progress. -/
def encodingAt (cap : Capacity) (eom : Word16) : State := block cap [] eom 0 .encoding

/-- The P1 frame validated, with the cursor at `eom`. -/
def decodingAt (eom : Word16) : State := block cap18 p1Frame eom 15 .decoding

def isNext : Result → Bool
  | .next _ => true
  | .fault _ => false
  | .refused _ => false

/-- The state a result holds. -/
def after : Result → State
  | .next t => t
  | .fault _ => State.reset
  | .refused _ => State.reset

/-- The response a command emitted last. -/
def answer (r : Result) : Option Response := (after r).out.getLast?

/-- `count` bytes of BUF from `lo` on. -/
def bytesOf (r : Result) (lo count : Nat) : List Byte := (after r).bufRange lo count

/-- EOM, FSTART and PHASE. -/
def registers (r : Result) : Word16 × Word16 × Phase := ((after r).eom, (after r).fstart, (after r).phase)

theorem ran {r : Result} (h : isNext r = true) : r = .next (after r) := by
  cases r with
  | next t => rfl
  | fault r => cases h
  | refused r => cases h

/-! ### Well-formedness (R64): an APPEND has exactly max(L, 1) record bytes -/

theorem test_wf_append_full : (Instr.append 0x04 [0x74, 0x01, 0x02]).wf = true := by decide
theorem test_wf_append_zero : (Instr.append 0x00 []).wf = true := by decide
theorem test_ill_append_short : (Instr.append 0x04 [0x74, 0x01]).wf = false := by decide
theorem test_ill_append_long : (Instr.append 0x04 [0x74, 0x01, 0x02, 0x03]).wf = false := by decide
theorem test_ill_append_zero_with_byte : (Instr.append 0x00 [0x01]).wf = false := by decide
theorem test_ill_append_one_with_byte : (Instr.append 0x01 [0x01]).wf = false := by decide

/-! ### Decoding: words of R68 and 95_test_vectors.md, written out byte by byte -/

theorem test_decode_start : decode [0x01, 0x04, 0x02, 0x34, 0x12, 0x56, 0x34, 0x12] =
    .command (.start 0x04 0x02 0x1234 0x123456) := by decide
theorem test_decode_append : decode [0x02, 0x03, 0x76, 0x09, 0x03] = .command (.append 0x03 [0x76, 0x09]) := by decide
theorem test_decode_seal : decode [0x03] = .command .sealMessage := by decide
theorem test_decode_validate : decode [0x04, 0x05] = .command .validate := by decide
theorem test_decode_next : decode [0x05] = .command .next := by decide
theorem test_decode_reset : decode [0x06] = .command .reset := by decide
theorem test_decode_crc : decode [0x07, 0x04, 0x00, 0x03, 0x00] = .command (.crc 4 3) := by decide
theorem test_decode_bwr : decode [0x08, 0x0F, 0x01, 0x5A] = .command (.bwr 0x010F 0x5A) := by decide
theorem test_decode_brd : decode [0x09, 0x10, 0x00, 0x05] = .command (.brd 0x0010) := by decide
theorem test_decode_reserved : decode [0x0A, 0x00, 0xFF] = .reserved 0x0A := by decide
theorem test_decode_incomplete : decode [0x02] = .incomplete ∧ decode [0x02, 0x05, 0x10, 0x0A] = .incomplete ∧
    decode [0x01, 0x00, 0x00, 0x00, 0x00, 0x00, 0x00] = .incomplete := by decide
theorem test_split_reserved : splitStream [0x0A, 0x00, 0xFF] = ([.reserved 0x0A, .reserved 0x00, .reserved 0xFF], []) := by
  decide
theorem test_table_words : decodeTableWord 8 0x01 = some (.start 0 0 0 0) ∧ decodeTableWord 8 0x09 = some (.brd 0) := by
  decide

/-! ### The commands (95_test_vectors.md section 2; V-FR, V-IT, V-CC, V-IL) -/

theorem test_start : (answer (execStart 4 2 0x1234 0x123456 (block cap16 [] 5 0 .idle)),
    bytesOf (execStart 4 2 0x1234 0x123456 (block cap16 [] 5 0 .idle)) 0 8) =
    (some ⟨.ok, 8, 0⟩, [0x04, 0x02, 0x34, 0x12, 0x56, 0x34, 0x12, 0x00]) := by decide

theorem test_append_exact_fit : (answer (execAppend 3 [0x11, 0x0D] (encodingAt cap16 13)),
    bytesOf (execAppend 3 [0x11, 0x0D] (encodingAt cap16 13)) 13 3) = (some ⟨.ok, 16, 0⟩, [0x03, 0x11, 0x0D]) := by decide
theorem test_append_past_end : (answer (execAppend 2 [0x12] (encodingAt cap16 16)),
    registers (execAppend 2 [0x12] (encodingAt cap16 16))) = (some ⟨.boundsExceeded, 0, 0⟩, (16, 0, .aborted)) := by decide

theorem test_seal_p1 : (answer (execSeal (block cap18 (p1Frame.take 7 ++ 0x00 :: (p1Frame.drop 8).take 7) 15 0 .encoding)),
    bytesOf (execSeal (block cap18 (p1Frame.take 7 ++ 0x00 :: (p1Frame.drop 8).take 7) 15 0 .encoding)) 0 18) =
    (some ⟨.ok, 18, 0xAB0F⟩, p1Frame) := by decide +kernel
theorem test_seal_no_room : (answer (execSeal (encodingAt cap16 16)), bytesOf (execSeal (encodingAt cap16 16)) 7 1) =
    (some ⟨.boundsExceeded, 0, 0⟩, [0x00]) := by decide

theorem test_validate_p1 : (answer (execValidate received), registers (execValidate received)) =
    (some ⟨.ok, 15, 0⟩, (8, 15, .decoding)) := by decide +kernel
theorem test_validate_sentinel : (answer (execValidate (block cap18 (p1Frame.set 15 0x01) 5 0 .idle)),
    registers (execValidate (block cap18 (p1Frame.set 15 0x01) 5 0 .idle))) =
    (some ⟨.malformedSentinel, 0, 0⟩, (5, 0, .rejected)) := by decide +kernel

theorem test_next : (answer (execNext (decodingAt 8)), registers (execNext (decodingAt 8))) =
    (some ⟨.ok, 8, 4⟩, (12, 15, .decoding)) := by decide
theorem test_next_exhausted : (answer (execNext (decodingAt 15)), registers (execNext (decodingAt 15))) =
    (some ⟨.iterationExhausted, 0, 0⟩, (15, 15, .decoding)) := by decide

theorem test_reset : (answer (execReset (block cap18 p1Frame 18 0 .sealed)),
    registers (execReset (block cap18 p1Frame 18 0 .sealed)),
    bytesOf (execReset (block cap18 p1Frame 18 0 .sealed)) 0 18) = (some ⟨.ok, 5, 0⟩, (5, 0, .idle), p1Frame) := by decide

theorem test_crc_reference : answer (execCrc 0 9 (block cap16 [0x31, 0x32, 0x33, 0x34, 0x35, 0x36, 0x37, 0x38, 0x39] 5 0
    .idle)) = some ⟨.ok, 0x31C3, 0⟩ := by decide +kernel
theorem test_crc_bounds : (answer (execCrc 4 3 (block cap16 [] 5 0 .idle)), answer (execCrc 0 17 (block cap16 [] 5 0 .idle)),
    answer (execCrc 16 16 (block cap16 [] 5 0 .idle))) =
    (some ⟨.boundsExceeded, 0, 0⟩, some ⟨.boundsExceeded, 0, 0⟩, some ⟨.ok, 0, 0⟩) := by decide

theorem test_bwr : (answer (execBwr 15 0x5A (block cap16 [] 5 0 .idle)), bytesOf (execBwr 15 0x5A (block cap16 [] 5 0 .idle))
    14 2) = (some ⟨.ok, 0, 0⟩, [0x00, 0x5A]) := by decide
theorem test_bwr_no_wrap : (answer (execBwr 0xFFFF 1 (block cap16 [] 5 0 .idle)), (after (execBwr 0xFFFF 1 (block cap16 [] 5 0
    .idle))).mem) = (some ⟨.boundsExceeded, 0, 0⟩, []) := by decide

theorem test_brd_crc_low : answer (execBrd 16 received) = some ⟨.ok, 0x000F, 0⟩ := by decide
theorem test_brd_past_end : answer (execBrd 18 received) = some ⟨.boundsExceeded, 0, 0⟩ := by decide

theorem test_reserved_step : (after (step (State.reset.startRun [0x0A, 0x03]))).out = [⟨.illegalCommand, 0, 0⟩] ∧
    (after (step (State.reset.startRun [0x0A, 0x03]))).cp = 1 := by decide
theorem test_table_word_runs : (after (step (State.reset.withFetchWord 8 0x06))).out = [⟨.ok, 5, 0⟩] := by decide

/-! ### The checksum (V-CRC), the response bytes (P1) and the assembler (P1, P3) -/

theorem test_crc16_vectors : crc16 [0x01] = 0x1021 ∧ crc16 [0x80] = 0x9188 ∧ crc16 [0xFF] = 0x1EF0 ∧
    crc16 [0x31] = 0x2672 := by decide
theorem test_crc16_two_bytes : crc16 [0xFF, 0xFF] = 0x1D0F ∧ crc16 [0x10, 0x21] = 0x3730 := by decide +kernel
theorem test_crc16_reference : crc16 [0x31, 0x32, 0x33, 0x34, 0x35, 0x36, 0x37, 0x38, 0x39] = 0x31C3 := by decide +kernel
theorem test_response_bytes : Response.bytes ⟨.ok, 18, 0xAB0F⟩ = [0x00, 0x12, 0x00, 0x0F, 0xAB] := by decide
theorem test_assemble_start : assembleText "start 4, 2, 0x1234, 0x123456 ; P1".toList =
    some [0x01, 0x04, 0x02, 0x34, 0x12, 0x56, 0x34, 0x12] := by decide +kernel
theorem test_assemble_rec : assembleText "rec 0x76, [9]".toList = some [0x02, 0x03, 0x76, 0x09] := by decide +kernel
theorem test_assemble_wrbuf : assembleText "wrbuf 0, [0x31, 0x32]".toList =
    some [0x08, 0x00, 0x00, 0x31, 0x08, 0x01, 0x00, 0x32] := by decide +kernel
theorem test_assemble_refuses : assembleText "bwr 0, 256".toList = none ∧ assembleText "append [3, 1]".toList = none := by
  decide +kernel

/-! ## Witnesses: states and operands that meet the hypotheses of the statements -/

/-! ### Encoding -/

theorem witness_DecodeUndoesEncode : (Instr.append 0x00 []).WellFormed ∧ (Instr.append 0x01 []).WellFormed ∧
    (Instr.append 0x02 [0x33]).WellFormed ∧ (Instr.append 0xFF (List.replicate 254 0x00)).WellFormed ∧
    (Instr.crc 0xFFFF 0xFFFF).WellFormed := by decide +kernel

theorem witness_DecodedBytesAreTheEncoding : decode [0x02, 0x02, 0x33, 0x03] = .command (.append 0x02 [0x33]) ∧
    decode [0x02, 0x01, 0x33] = .command (.append 0x01 []) := by decide

theorem witness_AppendTakesItsRecord : (2 ≤ (0x02 : Byte).toNat ∧ ([] : List Byte).length < (0x02 : Byte).toNat - 1) ∧
    (2 ≤ (0x02 : Byte).toNat ∧ (0x02 : Byte).toNat - 1 ≤ [(0x33 : Byte)].length) ∧
    (2 ≤ (0xFF : Byte).toNat ∧ (0xFF : Byte).toNat - 1 ≤ (List.replicate 254 (0x00 : Byte)).length) ∧
    (0x00 : Byte).toNat < 2 ∧ (0x01 : Byte).toNat < 2 := by decide +kernel

theorem witness_LengthDecidesCompleteness : decode (0x09 :: [0x10, 0x00]) = .command (.brd 0x0010) ∧
    decode (0xFF :: []) = .reserved 0xFF ∧ decode (0x02 :: []) = .incomplete := by decide

theorem witness_StreamSplitsUniquely : (∀ item ∈ [StreamItem.command (.brd 0x0010), .reserved 0x00], item.wf = true) ∧
    decode [0x02] = .incomplete := by decide

theorem witness_ReservedOpcode_step : ∀ op ∈ [(0x00 : Byte), 0x0A, 0xFF], (op = 0x00 ∨ 0x0A ≤ op.toNat) ∧
    (State.reset.startRun [op, 0x03]).pending = op :: [0x03] := by decide

theorem witness_ReservedOpcode_others : ∀ op ∈ [(0x01 : Byte), 0x09], 0x01 ≤ op.toNat ∧ op.toNat ≤ 0x09 ∧
    256 ≤ (op :: List.replicate 255 (0xFF : Byte)).length := by decide +kernel

/-! ### Steps and runs -/

/-- A block that has been sent three commands and part of a fourth. -/
def started : State := (block cap16 [] 5 0 .idle).startRun [0x01, 1, 2, 3, 4, 5, 6, 7, 0x03, 0x0A, 0x02]

theorem started_inv : started.Inv :=
  ⟨⟨by decide, by decide, by decide, by decide, by decide, by decide, by decide, by decide⟩, by decide, by decide⟩

theorem complete_inv : (State.reset.startRun []).Inv :=
  ⟨⟨by decide, by decide, by decide, by decide, by decide, by decide, by decide, by decide⟩, by decide, by decide⟩

theorem incomplete_inv : (State.reset.startRun [0x02]).Inv :=
  ⟨⟨by decide, by decide, by decide, by decide, by decide, by decide, by decide, by decide⟩, by decide, by decide⟩

/-- Also for EveryCommandEmitsOneResponse and CommandPointerOnlyAdvances. -/
theorem witness_StepKeepsInvariant : started.Inv ∧ step started = .next (after (step started)) :=
  ⟨started_inv, ran (by decide)⟩

theorem witness_EveryCommandEmitsOneResponse_failing : step (State.reset.startRun [0x03]) =
    .next (after (step (State.reset.startRun [0x03]))) ∧
    (after (step (State.reset.startRun [0x03]))).out = [] ++ [⟨.sequenceError, 0, 0⟩] := ⟨ran (by decide), by decide⟩

theorem witness_StepRunsDecodedCommand : decode (started.stream.drop started.cp) =
    .command (.start 1 2 0x0403 0x070605) := by decide

theorem witness_RunStops_complete : (State.reset.startRun []).stream.length ≤ (State.reset.startRun []).cp ∧
    (State.reset.startRun []).Inv ∧ step (State.reset.startRun []) = .fault .runComplete :=
  ⟨by decide, complete_inv, rfl⟩

theorem witness_RunStops_incomplete :
    decode ((State.reset.startRun [0x02]).stream.drop (State.reset.startRun [0x02]).cp) = .incomplete ∧
    (State.reset.startRun [0x02]).Inv ∧ step (State.reset.startRun [0x02]) = .fault .runIncomplete :=
  ⟨by decide, incomplete_inv, rfl⟩

theorem witness_StreamRunsItsCommandsInOrder : (∀ i ∈ [Instr.start 1 2 3 4, .append 2 [0x33], .next], i.WellFormed) ∧
    isNext (execAll [.start 1 2 3 4, .append 2 [0x33], .next]
      ((block cap16 [] 5 0 .idle).startRun ([Instr.start 1 2 3 4, .append 2 [0x33], .next].flatMap encode))) = true := by
  decide

/-! ### The block's invariant, in every PHASE -/

theorem idle_inv : (block cap16 [] 5 0 .idle).BlockInv :=
  ⟨by decide, by decide, by decide, by decide, by decide, by decide, by decide, by decide⟩

theorem encoding_inv : (encodingAt cap16 16).BlockInv :=
  ⟨by decide, by decide, by decide, by decide, by decide, by decide, by decide, by decide⟩

theorem sealed_inv : (block cap11 p6Frame 11 0 .sealed).BlockInv :=
  ⟨by decide, by decide, by decide, by decide, by decide, by decide, by decide, by decide⟩

/-- Also for IterationEnds. -/
theorem decoding_inv : (decodingAt 8).BlockInv :=
  ⟨by decide, by decide, by decide, by decide, by decide, by decide, by decide, by decide⟩

theorem aborted_inv : (block cap16 [] 16 0 .aborted).BlockInv :=
  ⟨by decide, by decide, by decide, by decide, by decide, by decide, by decide, by decide⟩

theorem rejected_inv : (block cap18 p1Frame 5 0 .rejected).BlockInv :=
  ⟨by decide, by decide, by decide, by decide, by decide, by decide, by decide, by decide⟩

/-- For EveryRunEnds and NoCommandLeavesBuffer. -/
theorem witness_EveryRunEnds : (block cap16 [] 5 0 .idle).BlockInv ∧ (encodingAt cap16 16).BlockInv ∧
    (block cap11 p6Frame 11 0 .sealed).BlockInv ∧ (decodingAt 8).BlockInv ∧ (block cap16 [] 16 0 .aborted).BlockInv ∧
    (block cap18 p1Frame 5 0 .rejected).BlockInv :=
  ⟨idle_inv, encoding_inv, sealed_inv, decoding_inv, aborted_inv, rejected_inv⟩

theorem witness_PowerOnMeetsInvariant : Memory.wf [(0, 0x01), (15, 0xFF)] = true ∧
    Memory.within cap16.bytes [(0, 0x01), (15, 0xFF)] = true := by decide

theorem witness_CanonicalBuffers : Memory.wf [(5, 0x01)] = true ∧
    (Memory.write (Memory.write (Memory.write [] 7 0x02) 5 0x01) 7 0x00).wf = true ∧
    ∀ a, Memory.read [(5, 0x01)] a = (Memory.write (Memory.write (Memory.write [] 7 0x02) 5 0x01) 7 0x00).read a :=
  ⟨by decide, by decide, fun _ => rfl⟩

/-! ### The commands -/

theorem witness_AppendCopiesRecord_wf : (Instr.append 0 []).WellFormed ∧ (Instr.append 1 []).WellFormed ∧
    (Instr.append 2 [0x12]).WellFormed ∧ (Instr.append 3 [0x11, 0x0D]).WellFormed := by decide

theorem witness_AppendCopiesRecord_sequence : ∀ p ∈ [Phase.idle, .sealed, .decoding, .aborted, .rejected],
    (block cap16 [] 5 0 p).phase ≠ .encoding := by decide

theorem witness_AppendCopiesRecord_malformed : (encodingAt cap16 16).phase = .encoding ∧ (0 : Byte).toNat < 2 ∧
    (1 : Byte).toNat < 2 := by decide

theorem witness_AppendCopiesRecord_bounds : (encodingAt cap16 15).phase = .encoding ∧ 2 ≤ (2 : Byte).toNat ∧
    (encodingAt cap16 15).cap.bytes < (encodingAt cap16 15).eom.toNat + (2 : Byte).toNat := by decide

theorem witness_AppendCopiesRecord_fits : (encodingAt cap16 14).phase = .encoding ∧ 2 ≤ (2 : Byte).toNat ∧
    (encodingAt cap16 14).eom.toNat + (2 : Byte).toNat ≤ (encodingAt cap16 14).cap.bytes ∧
    (encodingAt cap16 13).eom.toNat + (3 : Byte).toNat ≤ (encodingAt cap16 13).cap.bytes := by decide

theorem witness_SealClosesFrame_sequence : (block cap16 [] 5 0 .sealed).phase ≠ .encoding := by decide

theorem witness_SealClosesFrame_bounds : (encodingAt cap16 14).phase = .encoding ∧
    (encodingAt cap16 14).cap.bytes < (encodingAt cap16 14).eom.toNat + 3 := by decide

theorem witness_SealClosesFrame_fits : ∀ s ∈ [encodingAt cap16 13, encodingAt cap11 8], s.phase = .encoding ∧
    8 ≤ s.eom.toNat ∧ s.eom.toNat + 3 ≤ s.cap.bytes := by decide

theorem witness_ResetRewindsCursor : isNext (execAll (.reset :: [.bwr 0 1, .brd 0]) (decodingAt 8)) = true ∧
    (∀ i ∈ [Instr.bwr 0 1, .brd 0], i.opcode ≠ .start) ∧ (∀ i ∈ [Instr.bwr 0 1, .brd 0], i ≠ .validate) := by decide

/-- For BWR, BRD: the last legal address, the first illegal one, and the greatest. -/
theorem witness_BwrWritesOneByte : (15 : Word16).toNat < (block cap16 [] 5 0 .idle).cap.bytes ∧
    (block cap16 [] 5 0 .idle).cap.bytes ≤ (16 : Word16).toNat ∧
    (block cap16 [] 5 0 .idle).cap.bytes ≤ (0xFFFF : Word16).toNat := by decide

theorem witness_BrdReadsOneByte : (17 : Word16).toNat < received.cap.bytes ∧ received.cap.bytes ≤ (18 : Word16).toNat := by
  decide

theorem witness_CrcAnswersChecksumOfRange_bounds : (3 : Word16).toNat < (4 : Word16).toNat ∧
    received.cap.bytes < (19 : Word16).toNat := by decide

theorem witness_CrcAnswersChecksumOfRange : (5 : Word16).toNat ≤ (15 : Word16).toNat ∧
    (15 : Word16).toNat ≤ received.cap.bytes ∧ (17 : Word16).toNat ≤ (18 : Word16).toNat ∧
    (18 : Word16).toNat ≤ received.cap.bytes ∧ (0 : Word16).toNat ≤ (0 : Word16).toNat := by decide

theorem witness_ValidateChecksFrame_geometry : ((block cap18 (p1Frame.set 7 0x02) 5 0 .idle).buf 7).toNat < 3 ∧
    cap18.bytes < 5 + ((block cap18 (p1Frame.set 7 0x0B) 5 0 .idle).buf 7).toNat + 3 := by decide

theorem witness_ValidateChecksFrame_crc : 3 ≤ (0x0A : Byte).toNat ∧ 15 + 3 ≤ cap18.bytes ∧
    BufHolds (block cap18 (p1Frame.set 9 0x75) 5 0 .idle) 5 [0x34, 0x12, 0x0A, 0x04, 0x75, 0x01, 0x02, 0x03, 0x76, 0x09] ∧
    (crc16 [0x34, 0x12, 0x0A, 0x04, 0x75, 0x01, 0x02, 0x03, 0x76, 0x09]).toNat ≠ 0x0F + 256 * 0xAB := by
  refine ⟨by decide, by decide, ?_, by decide +kernel⟩
  unfold BufHolds
  decide

theorem witness_ValidateChecksFrame_match : BufHolds received 5 [0x34, 0x12, 0x0A, 0x04, 0x74, 0x01, 0x02, 0x03, 0x76, 0x09] ∧
    (crc16 [0x34, 0x12, 0x0A, 0x04, 0x74, 0x01, 0x02, 0x03, 0x76, 0x09]).toNat = 0x0F + 256 * 0xAB ∧
    received.buf 15 = 0x00 ∧ (block cap18 (p1Frame.set 15 0x01) 5 0 .idle).buf 15 ≠ 0x00 := by
  refine ⟨?_, by decide +kernel, by decide, by decide⟩
  unfold BufHolds
  decide

/-- hl = 3: the frame with no records, and F + 3 = CAPACITY. -/
theorem witness_ValidateChecksFrame_empty : ((block cap11 p6Frame 11 0 .sealed).buf 7).toNat = 3 ∧
    5 + 3 + 3 ≤ cap11.bytes ∧ crc16 [0x02, 0x03, 0x03] = 0x0B50 := by decide +kernel

theorem witness_NextWalksRecords_sequence : received.phase ≠ .decoding := by decide

theorem witness_NextWalksRecords_exhausted : (decodingAt 15).phase = .decoding ∧
    (decodingAt 15).eom = (decodingAt 15).fstart := by decide

/-- L = 1; and EOM + L = FSTART + 1. -/
theorem witness_NextWalksRecords_malformed :
    ∀ s ∈ [block cap18 (p1Frame.set 8 0x01) 8 15 .decoding, block cap18 (p1Frame.set 12 0x04) 12 15 .decoding],
    s.phase = .decoding ∧ s.eom ≠ s.fstart ∧ s.eom.toNat < s.cap.bytes ∧
    ((s.buf s.eom.toNat).toNat < 2 ∨ s.fstart.toNat < s.eom.toNat + (s.buf s.eom.toNat).toNat) := by decide

/-- L = 2; and EOM + L = FSTART, the last record. -/
theorem witness_NextWalksRecords_record :
    ∀ s ∈ [block cap18 (p1Frame.set 8 0x02) 8 15 .decoding, decodingAt 12],
    s.phase = .decoding ∧ s.eom ≠ s.fstart ∧ s.eom.toNat < s.cap.bytes ∧ 2 ≤ (s.buf s.eom.toNat).toNat ∧
    s.eom.toNat + (s.buf s.eom.toNat).toNat ≤ s.fstart.toNat := by decide

/-! ### Rules over all commands -/

/-- For every statement whose one hypothesis is that a command answers a next state (StatusesOfEachCommand,
PhaseByCommand): each of the nine does. -/
theorem witness_StatusesOfEachCommand : ∀ i ∈ [Instr.start 1 2 3 4, .append 2 [0x33], .sealMessage, .validate, .next, .reset,
    .crc 0 0, .bwr 0 1, .brd 0], isNext (exec i (encodingAt cap16 8)) = true := by decide +kernel

theorem witness_OnlyValidateWritesFstart : exec .validate received = .next (after (exec .validate received)) ∧
    (after (exec .validate received)).phase = .decoding ∧
    exec .validate (encodingAt cap16 8) = .next (after (exec .validate (encodingAt cap16 8))) ∧
    (after (exec .validate (encodingAt cap16 8))).phase ≠ .decoding :=
  ⟨ran (by decide +kernel), by decide +kernel, ran (by decide), by decide⟩

/-- The bytes next to the ones a command may write. -/
theorem witness_OnlyListedBytesAreWritten : ¬ (Instr.start 1 2 3 4).mayWrite (encodingAt cap16 8) 8 ∧
    ¬ (Instr.append 2 [0x33]).mayWrite (encodingAt cap16 8) 7 ∧ ¬ (Instr.append 2 [0x33]).mayWrite (encodingAt cap16 8) 10 ∧
    ¬ Instr.sealMessage.mayWrite (encodingAt cap16 8) 6 ∧ ¬ Instr.sealMessage.mayWrite (encodingAt cap16 9) 8 ∧
    ¬ Instr.sealMessage.mayWrite (encodingAt cap16 8) 11 ∧ ¬ (Instr.bwr 3 1).mayWrite (encodingAt cap16 8) 4 ∧
    ¬ Instr.validate.mayWrite (encodingAt cap16 8) 7 := by
  simp only [Instr.mayWrite]
  decide

theorem witness_FailureChangesAtMostPhase : exec (.append 2 [0x12]) (encodingAt cap16 16) =
      .next (after (exec (.append 2 [0x12]) (encodingAt cap16 16))) ∧
    (after (exec (.append 2 [0x12]) (encodingAt cap16 16))).out = (encodingAt cap16 16).out ++ [⟨.boundsExceeded, 0, 0⟩] ∧
    (⟨.boundsExceeded, 0, 0⟩ : Response).status ≠ .ok := ⟨ran (by decide), by decide, by decide⟩

theorem witness_AbortedUntilNextStart_first : (after (exec .sealMessage (encodingAt cap16 16))).phase = .aborted ∧
    (encodingAt cap16 16).phase ≠ .aborted ∧ isNext (exec .sealMessage (encodingAt cap16 16)) = true := by decide

theorem witness_AbortedUntilNextStart_sequence : (block cap16 [] 16 0 .aborted).phase = .aborted ∧
    (∀ i ∈ [Instr.bwr 0 1, .sealMessage, .reset], i.opcode ≠ .start) ∧
    isNext (execAll [.bwr 0 1, .sealMessage, .reset] (block cap16 [] 16 0 .aborted)) = true := by decide

theorem witness_AbortedUntilNextStart_other : (encodingAt cap16 8).phase = .encoding ∧ Instr.append 0 [] ≠ .validate ∧
    isNext (exec (.append 0 []) (encodingAt cap16 8)) = true ∧
    (after (exec (.append 0 []) (encodingAt cap16 8))).out = (encodingAt cap16 8).out ++ [⟨.malformedRecord, 0, 0⟩] ∧
    (⟨.malformedRecord, 0, 0⟩ : Response).status ≠ .ok ∧
    ¬ (((Instr.append 0 []).opcode = .append ∨ (Instr.append 0 []).opcode = .sealMessage) ∧
      (⟨.malformedRecord, 0, 0⟩ : Response).status = .boundsExceeded) := by decide

/-- Commands after which NEXT is refused, and after which it is not. -/
theorem witness_NextRefusedUntilValidateSucceeds : received.phase ≠ .decoding ∧
    isNext (execAll [.bwr 15 1, .validate, .reset] received) = true ∧
    isNext (execAll [.reset, .validate, .brd 0] received) = true ∧
    answer (execAll [.reset, .validate, .brd 0, .next] received) = some ⟨.ok, 8, 4⟩ := by decide +kernel

theorem witness_ViewSurvivesReadingCommands :
    (∀ i ∈ [Instr.validate, .next, .reset, .crc 0 18, .brd 8], i.opcode.readsOnly = true) ∧
    isNext (execAll [.validate, .next, .reset, .crc 0 18, .brd 8] received) = true := by decide +kernel

theorem witness_FstartIsInvisible : received.phase ≠ .decoding ∧
    (runFor 1 (received.startRun [0x04])).1.phase = .decoding := by decide +kernel

theorem witness_EomIsInvisible : received.phase ≠ .encoding ∧ received.phase ≠ .decoding ∧
    (runFor 1 (received.startRun [0x01, 1, 2, 3, 4, 5, 6, 7])).1.phase = .encoding := by decide

theorem witness_BlocksAreIndependent : (1 : Nat) ≠ 0 ∧ stepBlock [started, State.reset.startRun [0x06]] 1 =
    some [started, after (step (State.reset.startRun [0x06]))] := by decide

/-! ### The checksum -/

theorem witness_ChecksumIsLinear : [(0x01 : Byte), 0x80].length = [(0xFF : Byte), 0x00].length := by decide

theorem witness_ChecksumDetectsChangeOfOneByte : (0x74 : Byte) ≠ 0x75 ∧ 0 < 8 ∧ 7 < 8 := by decide

/-! ### Whole messages -/

/-- The records of P5c, which with header and footer exactly fill 16 bytes; and none in 11. -/
theorem witness_SealedFrameHoldsItsRecords :
    (∀ r ∈ [((0x05, [0x10, 0x0A, 0x0B, 0x0C]) : Record)], Record.Good r) ∧
    8 + (recordsBytes [(0x05, [0x10, 0x0A, 0x0B, 0x0C])]).length + 3 ≤ (block cap16 [] 5 0 .idle).cap.bytes ∧
    8 + (recordsBytes []).length + 3 ≤ (block cap11 [] 5 0 .idle).cap.bytes := by
  unfold Record.Good
  decide

/-- Two records, the second with an empty payload; they fill 17 of 18 bytes. -/
theorem witness_RoundTripYieldsTheRecords :
    (∀ r ∈ [((0x04, [0x74, 0x01, 0x02]) : Record), (0x02, [0x33])], Record.Good r) ∧
    8 + (recordsBytes [(0x04, [0x74, 0x01, 0x02]), (0x02, [0x33])]).length + 3 ≤ received.cap.bytes := by
  unfold Record.Good
  decide

theorem witness_EmptyMessageValidates : (0x0B50 : Word16) =
    crc16 [(0x030201 : Word24).extractLsb' 8 8, (0x030201 : Word24).extractLsb' 16 8, 0x03] := by decide +kernel

/-- A malformed record is among the commands the statement allows. -/
theorem witness_EncodingAfterReset :
    ∀ r ∈ [((0x02, [0x33]) : Record), (0x00, [])], (Instr.append r.1 r.2).WellFormed := by decide

/-- The received P1 frame with byte `a` set to `v`. -/
def changedAt (a : Nat) (v : Byte) : State := { received with mem := received.mem.write a v }

theorem changedAt_other {a b : Nat} (v : Byte) (h : b ≠ a) : (changedAt a v).buf b = received.buf b :=
  (read_write received.mem a b v).trans (if_neg h)

/-- Each boundary of the covered bytes, the crc and the sentinel. -/
theorem witness_ValidateDetectsChangedByte : exec .validate received = .next (after (exec .validate received)) ∧
    (after (exec .validate received)).phase = .decoding ∧ 15 = 5 + (received.buf 7).toNat ∧
    ∀ a ∈ [5, 6, 8, 14, 15, 16, 17], (changedAt a 0xFF).cap = received.cap ∧ (changedAt a 0xFF).buf a ≠ received.buf a ∧
      ∀ b, b ≠ a → (changedAt a 0xFF).buf b = received.buf b := by
  refine ⟨ran (by decide +kernel), by decide +kernel, by decide, fun a ha => ⟨rfl, ?_, fun b hb => changedAt_other _ hb⟩⟩
  revert a
  decide

theorem witness_IterationEnds : (decodingAt 8).BlockInv ∧ (decodingAt 8).phase = .decoding := ⟨decoding_inv, by decide⟩

/-! ### The assembly language -/

theorem witness_AssemblerAgreesWithEncoder : (Instr.append 0x03 [0x76, 0x09]).WellFormed := by decide

theorem witness_PseudoInstructionsExpand : (List.replicate 253 0).length ≤ 253 ∧ 253 < (List.replicate 254 0).length := by
  decide +kernel

end Sys2Proof.Tests
end

section
/-! The statements of 30_encoding.md: reserved opcodes, pseudo-instructions, operand assembly. -/

namespace Sys2Proof.Machine

open Sys2Proof.Claims

/-! ### Reserved opcodes and complete commands (R69) -/

theorem decode_reserved {op : Byte} (h : Opcode.ofByte? op = none) (rest : List Byte) :
    decode (op :: rest) = .reserved op := by
  simp only [decode, h]

/-- What a step does at a reserved opcode. -/
theorem step_reserved {s : State} {op : Byte} (h : decode s.pending = .reserved op) :
    step s = .next { s.emit ⟨.illegalCommand, 0, 0⟩ with cp := s.cp + 1 } := by
  simp only [step, h]
  rfl

/-- Seven bytes are the operands of START, the longest fixed format (R63). -/
theorem exists_seven_cons {bs : List Byte} (h : 7 ≤ bs.length) :
    ∃ b0 b1 b2 b3 b4 b5 b6 tail, bs = b0 :: b1 :: b2 :: b3 :: b4 :: b5 :: b6 :: tail :=
  match bs, h with
  | b0 :: b1 :: b2 :: b3 :: b4 :: b5 :: b6 :: tail, _ => ⟨b0, b1, b2, b3, b4, b5, b6, tail, rfl⟩

/-- 255 operand bytes are enough for every opcode: APPEND takes at most L ≤ 255 of them (R64), the fixed formats at
most 7. -/
theorem decodeOperands_of_long (o : Opcode) {rest : List Byte} (h : 255 ≤ rest.length) :
    ∃ i, decodeOperands o rest = some i := by
  obtain ⟨b0, b1, b2, b3, b4, b5, b6, tail, rfl⟩ := exists_seven_cons (by omega : 7 ≤ rest.length)
  cases o with
  | append =>
    have hfits : b0.toNat - 1 ≤ (b1 :: b2 :: b3 :: b4 :: b5 :: b6 :: tail).length := by
      have := b0.isLt
      simp only [List.length_cons] at h ⊢
      omega
    exact ⟨_, by rw [decodeOperands, takeExactly_eq, if_pos hfits, Option.map_some]⟩
  | _ => exact ⟨_, rfl⟩

/-- A byte that is not reserved is the byte of one of the nine opcodes (R68). -/
theorem exists_opcode {op : Byte} (h1 : 0x01 ≤ op.toNat) (h9 : op.toNat ≤ 0x09) : ∃ o : Opcode, o.byte = op := by
  have hmapped : Opcode.ofByte? op ≠ none := by
    rw [Ne, ofByte_none_iff]
    rintro (rfl | h)
    · exact absurd h1 (by decide)
    · omega
  obtain ⟨o, ho⟩ := Option.ne_none_iff_exists'.1 hmapped
  exact ⟨o, byte_of_ofByte ho⟩

/-- Settles O8: the decoder names exactly the reserved bytes, and after any other opcode 255 bytes are enough. -/
theorem reservedOpcodeAnswersIllegalCommand : Obligations.ReservedOpcodeAnswersIllegalCommand := by
  refine ⟨fun s op rest hop hpending => ?_, fun op rest h1 h9 hlen => ?_⟩
  · exact step_reserved (hpending ▸ decode_reserved (ofByte_none_iff.2 hop) rest)
  · obtain ⟨o, rfl⟩ := exists_opcode h1 h9
    obtain ⟨i, hi⟩ := decodeOperands_of_long o (Nat.le_of_succ_le_succ hlen)
    exact ⟨i, by rw [decode_opcode, hi]⟩

/-! ### Pseudo-instructions (R76) -/

/-- `wrbuf`, its bytes counted from `k`: byte number `j` goes to address `addr + j`. -/
theorem expandWrbuf_add (addr k : Nat) (d : List Nat) :
    expandWrbuf (addr + k) d = (d.zipIdx k).map fun x => .bwr (addr + x.2) x.1 := by
  induction d generalizing k with
  | nil => rfl
  | cons b d ih => rw [expandWrbuf, Nat.add_assoc, ih, List.zipIdx_cons, List.map_cons]

theorem expandRdbuf_eq (addr n : Nat) : expandRdbuf addr n = (List.range n).map fun k => .brd (addr + k) := by
  induction n generalizing addr with
  | zero => rfl
  | succ n ih =>
    simp [expandRdbuf, ih, List.range_succ_eq_map, Nat.add_assoc, Nat.add_comm 1]

/-- Settles O53: the two conditional expansions of `rec` by its bound, the others by the equations above. -/
theorem pseudoInstructionsExpand : Obligations.PseudoInstructionsExpand :=
  ⟨fun _ _ hfits => if_pos hfits,
    fun _ _ hlong => if_neg (Nat.not_le_of_lt hlong),
    fun addr d => congrArg some (expandWrbuf_add addr 0 d),
    fun addr n => congrArg some (expandRdbuf_eq addr n),
    fun _ _ => rfl⟩

/-! ### Operand assembly (R63, R65, R66, R67) -/

theorem toNat_ofNat_leValue_two (a b : Byte) :
    (BitVec.ofNat 16 (leValue [a, b])).toNat = a.toNat + 256 * b.toNat := by
  have hlt : leValue [a, b] < 2 ^ 16 := by simpa using leValue_lt [a, b]
  rw [BitVec.toNat_ofNat, Nat.mod_eq_of_lt hlt]
  rfl

theorem toNat_ofNat_leValue_three (a b c : Byte) :
    (BitVec.ofNat 24 (leValue [a, b, c])).toNat = a.toNat + 256 * b.toNat + 65536 * c.toNat := by
  have hlt : leValue [a, b, c] < 2 ^ 24 := by simpa using leValue_lt [a, b, c]
  rw [BitVec.toNat_ofNat, Nat.mod_eq_of_lt hlt]
  simp only [leValue]
  omega

/-- START's header is its seven operand bytes as they stand in the stream, then the placeholder (R63, R90). -/
theorem headerBytes_of_operands (c1 c2 c3 c4 c5 c6 c7 : Byte) :
    headerBytes c1 c2 (BitVec.ofNat 16 (leValue [c3, c4])) (BitVec.ofNat 24 (leValue [c5, c6, c7])) =
      [c1, c2, c3, c4, c5, c6, c7] ++ [0x00] := by
  rw [headerBytes, leBytes_ofNat_two, leBytes_ofNat_three]
  rfl

/-- BUF holds a byte sequence where it was just written. -/
theorem bufHolds_of_mem_eq_writeRange {t : State} {m : Memory} {lo : Nat} {bs : List Byte}
    (h : t.mem = m.writeRange lo bs) : BufHolds t lo bs := fun k hk => by
  rw [State.buf, h]
  exact read_writeRange_inside m lo bs hk

/-- What BUF holds, it holds the beginning of. -/
theorem bufHolds_left {t : State} {lo : Nat} {as bs : List Byte} (h : BufHolds t lo (as ++ bs)) : BufHolds t lo as :=
  fun k hk => by
    rw [← h k (by rw [List.length_append]; omega), List.getElem?_append_left hk]

/-- START leaves its header at the beginning of BUF (R90). -/
theorem exec_start_bufHolds (mfr prod : Byte) (pip : Word16) (sensor : Word24) (s : State) :
    ∃ t, exec (.start mfr prod pip sensor) s = .next t ∧ BufHolds t 0 (headerBytes mfr prod pip sensor) :=
  ⟨_, execStart_eq mfr prod pip sensor s, bufHolds_of_mem_eq_writeRange rfl⟩

/-- Settles O4: the values of the little-endian operands, and the header that their bytes make. -/
theorem operandsAssembleLittleEndian : Obligations.OperandsAssembleLittleEndian := by
  refine ⟨fun c1 c2 c3 c4 c5 c6 c7 rest => ?_, fun c1 c2 c3 c4 rest => ?_, fun c1 c2 c3 rest => ?_,
    fun c1 c2 rest => ?_⟩
  · refine ⟨_, _, rfl, toNat_ofNat_leValue_two c3 c4, toNat_ofNat_leValue_three c5 c6 c7, fun s => ?_⟩
    obtain ⟨t, hexec, hheader⟩ := exec_start_bufHolds c1 c2 (BitVec.ofNat 16 (leValue [c3, c4]))
      (BitVec.ofNat 24 (leValue [c5, c6, c7])) s
    rw [headerBytes_of_operands] at hheader
    exact ⟨t, hexec, bufHolds_left hheader⟩
  · exact ⟨_, _, rfl, toNat_ofNat_leValue_two c1 c2, toNat_ofNat_leValue_two c3 c4⟩
  · exact ⟨_, rfl, toNat_ofNat_leValue_two c1 c2⟩
  · exact ⟨_, rfl, toNat_ofNat_leValue_two c1 c2⟩

end Sys2Proof.Machine
end

section
/-! The statement of 40_crc.md: the CRC command. -/

namespace Sys2Proof.Machine

open Sys2Proof.Claims

/-- The bytes read from a range of BUF are those BUF holds there. -/
theorem bufHolds_bufRange (s : State) (lo n : Nat) : BufHolds s lo (s.bufRange lo n) := fun k hk => by
  rw [bufRange_length] at hk
  rw [bufRange_getElem?, if_pos hk]

theorem encode_crc (lo hi : Word16) : encode (.crc lo hi) =
    [0x07, lo.extractLsb' 0 8, lo.extractLsb' 8 8, hi.extractLsb' 0 8, hi.extractLsb' 8 8] := by
  rw [encode, encodeOperands, leBytes_two, leBytes_two]
  rfl

/-- A range that is reversed or ends beyond CAPACITY is refused (R83). -/
theorem exec_crc_outside {s : State} {lo hi : Word16} (h : hi.toNat < lo.toNat ∨ s.cap.bytes < hi.toNat) :
    exec (.crc lo hi) s = .next (answered s ⟨.boundsExceeded, 0, 0⟩) :=
  (execCrc_eq lo hi s).trans (if_pos h)

/-- A range within BUF is answered with its checksum (R83). -/
theorem exec_crc_inside {s : State} {lo hi : Word16} (horder : lo.toNat ≤ hi.toNat) (hcap : hi.toNat ≤ s.cap.bytes) :
    exec (.crc lo hi) s =
      .next (answered s ⟨.ok, crc16 (s.bufRange lo.toNat (hi.toNat - lo.toNat)), 0⟩) :=
  (execCrc_eq lo hi s).trans (if_neg (by omega))

/-- Settles O23: the two outcomes of CRC; an empty range reads no bytes, and their checksum is 0x0000 (R82). -/
theorem crcAnswersChecksumOfRange : Obligations.CrcAnswersChecksumOfRange := by
  refine fun s lo hi => ⟨encode_crc lo hi, exec_crc_outside, fun horder hcap => ⟨?_, ?_⟩⟩
  · exact ⟨_, bufRange_length, bufHolds_bufRange s lo.toNat _, exec_crc_inside horder hcap⟩
  · rintro rfl
    have hempty : s.bufRange lo.toNat (lo.toNat - lo.toNat) = [] := by
      rw [Nat.sub_self]
      rfl
    rw [exec_crc_inside horder hcap, hempty, crc16_nil]

end Sys2Proof.Machine
end

section
/-! The statements of 41_framer.md: START, APPEND, SEAL, BWR, BRD. -/

namespace Sys2Proof.Machine

open Sys2Proof.Claims

/-! ### BUF and the cursor after a write -/

/-- The write of a byte sequence leaves every byte outside it. -/
theorem buf_of_mem_eq_writeRange_outside {s t : State} {lo a : Nat} {bs : List Byte}
    (h : t.mem = s.mem.writeRange lo bs) (ha : a < lo ∨ lo + bs.length ≤ a) : t.buf a = s.buf a := by
  rw [State.buf, h]
  exact read_writeRange_outside s.mem bs ha

/-- An offset within BUF has a 16-bit value, since CAPACITY is at most 263 (R5). -/
theorem toNat_ofNat_of_le_cap {s : State} {v : Nat} (h : v ≤ s.cap.bytes) : (BitVec.ofNat 16 v).toNat = v := by
  have := s.cap.greatest
  rw [BitVec.toNat_ofNat, Nat.mod_eq_of_lt (by omega)]

/-! ### START (R90) -/

theorem headerBytes_eq (mfr prod : Byte) (pip : Word16) (sensor : Word24) :
    headerBytes mfr prod pip sensor = [mfr, prod, pip.extractLsb' 0 8, pip.extractLsb' 8 8,
      sensor.extractLsb' 0 8, sensor.extractLsb' 8 8, sensor.extractLsb' 16 8, 0x00] := by
  rw [headerBytes, leBytes_two, leBytes_three]
  rfl

theorem encode_start (mfr prod : Byte) (pip : Word16) (sensor : Word24) :
    encode (.start mfr prod pip sensor) = [0x01, mfr, prod, pip.extractLsb' 0 8, pip.extractLsb' 8 8,
      sensor.extractLsb' 0 8, sensor.extractLsb' 8 8, sensor.extractLsb' 16 8] := by
  rw [encode, encodeOperands, leBytes_two, leBytes_three]
  rfl

/-- Settles O17: the one outcome of START writes the header, and writes nothing behind it. -/
theorem startOpensMessage : Obligations.StartOpensMessage := by
  refine fun s mfr prod pip sensor => ⟨encode_start mfr prod pip sensor, _, execStart_eq mfr prod pip sensor s,
    ?_, fun a ha => ?_, rfl, rfl, rfl, rfl, rfl, rfl, rfl⟩
  · rw [← headerBytes_eq]
    exact bufHolds_of_mem_eq_writeRange rfl
  · exact buf_of_mem_eq_writeRange_outside rfl (.inr (by simpa using ha))

/-! ### APPEND (R91): its three checks in their order, then the copy -/

theorem exec_append_outside_encoding {s : State} (h : s.phase ≠ .encoding) (len : Byte) (body : List Byte) :
    exec (.append len body) s = .next (answered s ⟨.sequenceError, 0, 0⟩) :=
  if_pos h

theorem exec_append_short {s : State} {len : Byte} (hphase : s.phase = .encoding) (hlen : len.toNat < 2)
    (body : List Byte) : exec (.append len body) s = .next (answered s ⟨.malformedRecord, 0, 0⟩) :=
  (if_neg (not_not.2 hphase)).trans (if_pos hlen)

theorem exec_append_past_end {s : State} {len : Byte} (hphase : s.phase = .encoding) (hlen : 2 ≤ len.toNat)
    (hcap : s.cap.bytes < s.eom.toNat + len.toNat) (body : List Byte) :
    exec (.append len body) s = .next { answered s ⟨.boundsExceeded, 0, 0⟩ with phase := .aborted } :=
  (if_neg (not_not.2 hphase)).trans <| (if_neg (Nat.not_lt.2 hlen)).trans (if_pos hcap)

/-- APPEND copies the whole record operand of a well-formed command to the cursor. -/
theorem appended_mem {s : State} {len : Byte} {body : List Byte} (hw : (Instr.append len body).WellFormed)
    (hlen : 2 ≤ len.toNat) : (appended len body s).mem = s.mem.writeRange s.eom.toNat (len :: body) :=
  congrArg (s.mem.writeRange s.eom.toNat) (recordBytes_wf hw (by omega))

/-- A record of L ≥ 2 has L bytes, its length byte among them (R49, R64). -/
theorem record_length {len : Byte} {body : List Byte} (hw : (Instr.append len body).WellFormed)
    (hlen : 2 ≤ len.toNat) : (len :: body).length = len.toNat := by
  simp only [Instr.WellFormed, Instr.wf, beq_iff_eq] at hw
  rw [List.length_cons]
  omega

/-- Settles O18: the refusals by the three checks, and the copied record with its frame when all three pass. -/
theorem appendCopiesRecord : Obligations.AppendCopiesRecord := by
  refine fun s len body hw => ⟨rfl, (exec_append_outside_encoding · len body), (exec_append_short · · body),
    (exec_append_past_end · · · body), fun hphase hlen hcap => ?_⟩
  have hmem := appended_mem (s := s) hw hlen
  refine ⟨_, execAppend_ok hphase hlen hcap, bufHolds_of_mem_eq_writeRange hmem, fun a ha => ?_,
    toNat_ofNat_of_le_cap hcap, hphase, rfl, rfl, rfl, rfl, rfl⟩
  exact buf_of_mem_eq_writeRange_outside hmem (by rwa [record_length hw hlen])

/-! ### SEAL (R92): its two checks, then header_length, then the footer with the crc that covers it -/

theorem exec_seal_outside_encoding {s : State} (h : s.phase ≠ .encoding) :
    exec .sealMessage s = .next (answered s ⟨.sequenceError, 0, 0⟩) :=
  if_pos h

theorem exec_seal_past_end {s : State} (hphase : s.phase = .encoding) (hcap : s.cap.bytes < s.eom.toNat + 3) :
    exec .sealMessage s = .next { answered s ⟨.boundsExceeded, 0, 0⟩ with phase := .aborted } :=
  (if_neg (not_not.2 hphase)).trans (if_pos hcap)

/-- The state in which SEAL has written header_length and not yet the footer (90_conflicts.md C1). -/
def lengthWritten (s : State) : State :=
  { s with mem := s.mem.writeRange 7 [BitVec.ofNat 8 (s.eom.toNat - 5)] }

/-- The crc that SEAL computes, over the covered bytes with the new header_length. -/
def sealCrc (s : State) : Word16 := crc16 ((lengthWritten s).bufRange 5 (s.eom.toNat - 5))

theorem sealed_mem (s : State) :
    (sealed s).mem = (lengthWritten s).mem.writeRange s.eom.toNat (footerBytes (sealCrc s)) := rfl

theorem sealed_answers (s : State) : Answers s (sealed s) ⟨.ok, (sealed s).eom, sealCrc s⟩ := ⟨rfl, rfl, rfl, rfl⟩

/-- The footer lies at the cursor: SEAL leaves the bytes before it and behind it as they were with header_length. -/
theorem sealed_buf_outside_footer {s : State} {a : Nat} (ha : a < s.eom.toNat ∨ s.eom.toNat + 3 ≤ a) :
    (sealed s).buf a = (lengthWritten s).buf a :=
  buf_of_mem_eq_writeRange_outside (sealed_mem s) (by rwa [footerBytes_length])

theorem lengthWritten_buf_seven (s : State) : (lengthWritten s).buf 7 = BitVec.ofNat 8 (s.eom.toNat - 5) :=
  (Option.some.inj (read_writeRange_inside s.mem 7 [BitVec.ofNat 8 (s.eom.toNat - 5)] Nat.zero_lt_one)).symm

theorem lengthWritten_buf_ne {s : State} {a : Nat} (ha : a ≠ 7) : (lengthWritten s).buf a = s.buf a :=
  buf_of_mem_eq_writeRange_outside (t := lengthWritten s) rfl (by rw [List.length_singleton]; omega)

/-- With a header before the cursor and a footer that fits, EOM - 5 has an 8-bit value. -/
theorem sealed_headerLength {s : State} (hheader : 8 ≤ s.eom.toNat) (hcap : s.eom.toNat + 3 ≤ s.cap.bytes) :
    ((sealed s).buf 7).toNat = s.eom.toNat - 5 := by
  have := s.cap.greatest
  rw [sealed_buf_outside_footer (.inl hheader), lengthWritten_buf_seven, BitVec.toNat_ofNat,
    Nat.mod_eq_of_lt (by omega)]

/-- The footer lies behind the covered bytes, so the crc is that of the bytes in BUF after SEAL. -/
theorem sealCrc_eq (s : State) : sealCrc s = crc16 ((sealed s).bufRange 5 (s.eom.toNat - 5)) :=
  congrArg crc16 (readRange_congr fun k hk => (sealed_buf_outside_footer (s := s) (.inl (by omega))).symm)

theorem sealed_holds_footer (s : State) : BufHolds (sealed s) s.eom.toNat
    [0x00, (sealCrc s).extractLsb' 0 8, (sealCrc s).extractLsb' 8 8] := by
  rw [← leBytes_two]
  exact bufHolds_of_mem_eq_writeRange (sealed_mem s)

/-- Settles O19: the refusals by the two checks, and the closed frame when both pass. -/
theorem sealClosesFrame : Obligations.SealClosesFrame := by
  refine ⟨rfl, fun s => ⟨exec_seal_outside_encoding, exec_seal_past_end, fun hphase hheader hcap => ?_⟩⟩
  have hlength := sealed_headerLength hheader hcap
  refine ⟨sealed s, sealCrc s, execSeal_ok hphase hcap (by omega), hlength, by omega, sealCrc_eq s,
    sealed_holds_footer s, fun a hne ha => ?_, toNat_ofNat_of_le_cap hcap, rfl, rfl, sealed_answers s⟩
  rw [sealed_buf_outside_footer ha, lengthWritten_buf_ne hne]

/-! ### BWR and BRD (R94, R95): one byte of BUF -/

theorem encode_bwr (addr : Word16) (data : Byte) :
    encode (.bwr addr data) = [0x08, addr.extractLsb' 0 8, addr.extractLsb' 8 8, data] := by
  rw [encode, encodeOperands, leBytes_two]
  rfl

theorem encode_brd (addr : Word16) :
    encode (.brd addr) = [0x09, addr.extractLsb' 0 8, addr.extractLsb' 8 8] := by
  rw [encode, encodeOperands, leBytes_two]
  rfl

/-- Settles O21: the two outcomes of BWR, and the read of a byte after the write of one. -/
theorem bwrWritesOneByte : Obligations.BwrWritesOneByte := by
  refine fun s addr data => ⟨encode_bwr addr data, fun hcap => (execBwr_eq addr data s).trans (if_pos hcap),
    fun hcap => ?_⟩
  refine ⟨_, (execBwr_eq addr data s).trans (if_neg (Nat.not_le.2 hcap)), ?_, fun a ha => ?_,
    rfl, rfl, rfl, rfl, rfl, rfl, rfl⟩
  · exact (read_write s.mem addr.toNat addr.toNat data).trans (if_pos rfl)
  · exact (read_write s.mem addr.toNat a data).trans (if_neg ha)

/-- Settles O22: the two outcomes of BRD; a byte extended with zeros is its value in 16 bits. -/
theorem brdReadsOneByte : Obligations.BrdReadsOneByte := by
  refine fun s addr => ⟨encode_brd addr, fun hcap => (execBrd_eq addr s).trans (if_pos hcap), fun hcap => ?_⟩
  rw [BitVec.ofNat_toNat]
  exact (execBrd_eq addr s).trans (if_neg (Nat.not_le.2 hcap))

end Sys2Proof.Machine
end

section
/-! The statements of 42_iterator.md: VALIDATE and NEXT. -/

namespace Sys2Proof.Machine

open Sys2Proof.Claims

/-! ### VALIDATE (R120): geometry, then crc, then sentinel; `hl` is BUF[7], and 5 + hl the footer start -/

/-- The crc in the footer at address `f`, low byte first (R48). -/
def storedCrc (s : State) (f : Nat) : Nat := (s.buf (f + 1)).toNat + 256 * (s.buf (f + 2)).toNat

section
variable {s : State} {hl : Nat} (hhl : hl = (s.buf 7).toNat)
include hhl

theorem exec_validate_geometry (h : hl < 3 ∨ s.cap.bytes < 5 + hl + 3) :
    exec .validate s = .next { answered s ⟨.checksumMismatch, 0, 0⟩ with phase := .rejected } := by
  subst hhl
  exact (execValidate_eq s).trans (if_pos h)

/-- A frame whose geometry fits is judged by its crc, then by its sentinel. -/
theorem exec_validate_fitting (hmin : 3 ≤ hl) (hcap : 5 + hl + 3 ≤ s.cap.bytes) : exec .validate s =
    if (crc16 (s.bufRange 5 hl)).toNat ≠ storedCrc s (5 + hl) then
      .next { answered s ⟨.checksumMismatch, 0, 0⟩ with phase := .rejected }
    else if s.buf (5 + hl) ≠ 0x00 then
      .next { answered s ⟨.malformedSentinel, 0, 0⟩ with phase := .rejected }
    else .next { answered s ⟨.ok, BitVec.ofNat 16 (5 + hl), 0⟩ with
      eom := 8, fstart := BitVec.ofNat 16 (5 + hl), phase := .decoding } := by
  subst hhl
  exact (execValidate_eq s).trans (if_neg (by omega))

end

/-- Settles O24: a failed geometry, and with a fitting one the three outcomes over the covered bytes as BUF holds
them. -/
theorem validateChecksFrame : Obligations.ValidateChecksFrame := by
  refine ⟨rfl, ?_⟩
  rintro s hl _ _ hhl rfl rfl
  refine ⟨exec_validate_geometry hhl, fun hmin hcap => ?_⟩
  have hfit := exec_validate_fitting hhl hmin hcap
  refine ⟨s.bufRange 5 hl, ?_, bufHolds_bufRange s 5 hl, fun hcrc => ?_, fun hcrc heod => ?_, fun hcrc heod => ?_⟩
  · rw [bufRange_length, Nat.add_sub_cancel_left]
  · exact hfit.trans (if_pos hcrc)
  · exact hfit.trans <| (if_neg (not_not.2 hcrc)).trans (if_pos heod)
  · exact hfit.trans <| (if_neg (not_not.2 hcrc)).trans (if_neg (not_not.2 heod))

/-! ### NEXT (R121): its three checks in their order, then the record at the cursor -/

theorem exec_next_outside_decoding {s : State} (h : s.phase ≠ .decoding) :
    exec .next s = .next (answered s ⟨.sequenceError, 0, 0⟩) :=
  if_pos h

theorem exec_next_at_footer {s : State} (hphase : s.phase = .decoding) (heom : s.eom = s.fstart) :
    exec .next s = .next (answered s ⟨.iterationExhausted, 0, 0⟩) :=
  (if_neg (not_not.2 hphase)).trans (if_pos heom)

/-- In DECODING, before the footer, NEXT judges the length byte at the cursor; a byte extended with zeros is its value
in 16 bits. -/
theorem exec_next_before_footer {s : State} (hphase : s.phase = .decoding) (heom : s.eom ≠ s.fstart)
    (hcap : s.eom.toNat < s.cap.bytes) {len : Nat} (hlen : len = (s.buf s.eom.toNat).toNat) : exec .next s =
    if len < 2 ∨ s.fstart.toNat < s.eom.toNat + len then .next (answered s ⟨.malformedRecord, 0, 0⟩)
    else .next { answered s ⟨.ok, s.eom, BitVec.ofNat 16 len⟩ with eom := BitVec.ofNat 16 (s.eom.toNat + len) } := by
  rw [hlen, BitVec.ofNat_toNat]
  exact (execNext_eq hcap).trans <| (if_neg (not_not.2 hphase)).trans (if_neg heom)

/-- Settles O25: the refusals by the phase, at the footer and for a record that does not fit, and the step past one
that does. -/
theorem nextWalksRecords : Obligations.NextWalksRecords := by
  refine ⟨rfl, fun s len hlen => ⟨exec_next_outside_decoding, exec_next_at_footer,
    fun hphase heom hcap hbad => ?_, fun hphase heom hcap hmin hend => ?_⟩⟩
  · exact (exec_next_before_footer hphase heom hcap hlen).trans (if_pos hbad)
  · exact (exec_next_before_footer hphase heom hcap hlen).trans (if_neg (by omega))

end Sys2Proof.Machine
end

section
/-! The statements of 30_encoding.md, sections 2 to 4: decoder and encoder agree, the length rule, the unique split of a
command stream. -/

namespace Sys2Proof

/-! ### Decode of encode -/

theorem wellFormed_append_iff {len : Byte} {body : List Byte} :
    (Instr.append len body).WellFormed ↔ 1 + body.length = max len.toNat 1 := by
  simp [Instr.WellFormed, Instr.wf]

/-- The encoding of a well-formed command is as long as the command (R62, R64). -/
theorem encode_length {i : Instr} (hw : i.WellFormed) : (encode i).length = i.length := by
  have hlength : Laws.EncodedLength.Statement i := by
    cases i with
    | start mfr prod pip sensor => exact Laws.EncodedLength.start mfr prod pip sensor
    | append len body => exact Laws.EncodedLength.append len body
    | sealMessage => exact Laws.EncodedLength.sealMessage
    | validate => exact Laws.EncodedLength.validate
    | next => exact Laws.EncodedLength.next
    | reset => exact Laws.EncodedLength.reset
    | crc lo hi => exact Laws.EncodedLength.crc lo hi
    | bwr addr data => exact Laws.EncodedLength.bwr addr data
    | brd addr => exact Laws.EncodedLength.brd addr
  exact (hlength hw).1

/-- The operands of a well-formed command are read back from their bytes, whatever bytes follow. -/
theorem decodeOperands_encodeOperands {i : Instr} (hw : i.WellFormed) (rest : List Byte) :
    decodeOperands i.opcode (encodeOperands i ++ rest) = some i := by
  cases i with
  | append len body =>
    have hlen : len.toNat - 1 = body.length := by
      rw [wellFormed_append_iff] at hw
      omega
    simp [encodeOperands, Instr.opcode, decodeOperands, takeExactly_eq, hlen]
  | start mfr prod pip sensor =>
    have hpip := ofNat_leValue_two pip (leBytes_two pip)
    have hsensor := ofNat_leValue_three sensor (leBytes_three sensor)
    simp [encodeOperands, Instr.opcode, leBytes_two, leBytes_three, decodeOperands, hpip, hsensor]
  | crc lo hi =>
    have hlo := ofNat_leValue_two lo (leBytes_two lo)
    have hhi := ofNat_leValue_two hi (leBytes_two hi)
    simp [encodeOperands, Instr.opcode, leBytes_two, decodeOperands, hlo, hhi]
  | bwr addr data =>
    have haddr := ofNat_leValue_two addr (leBytes_two addr)
    simp [encodeOperands, Instr.opcode, leBytes_two, decodeOperands, haddr]
  | brd addr =>
    have haddr := ofNat_leValue_two addr (leBytes_two addr)
    simp [encodeOperands, Instr.opcode, leBytes_two, decodeOperands, haddr]
  | sealMessage | validate | next | reset => rfl

theorem decode_encode {i : Instr} (hw : i.WellFormed) (rest : List Byte) : decode (encode i ++ rest) = .command i := by
  rw [encode, List.cons_append, decode_opcode, decodeOperands_encodeOperands hw]

/-- Settles O2: the operands of each format are read back from their bytes. -/
theorem decodeUndoesEncode : Obligations.DecodeUndoesEncode :=
  fun _ rest hw => ⟨decode_encode hw rest, encode_length hw⟩

/-! ### Encode of decode -/

/-- Operands that are read are those of a well-formed command of this opcode, and were written as its encoding says. -/
theorem encodeOperands_of_decodeOperands {o : Opcode} {bs : List Byte} {i : Instr} (h : decodeOperands o bs = some i) :
    i.opcode = o ∧ i.WellFormed ∧ ∃ rest, bs = encodeOperands i ++ rest := by
  unfold decodeOperands at h
  split at h
  case h_3 len rest => -- APPEND: the length byte says how many bytes follow
    rw [takeExactly_eq] at h
    split at h
    · rename_i hlen
      cases h
      refine ⟨rfl, ?_, rest.drop (len.toNat - 1), ?_⟩
      · rw [wellFormed_append_iff, List.length_take]
        omega
      · rw [encodeOperands, List.cons_append, List.take_append_drop]
    · cases h
  all_goals cases h
  case h_1 mfr prod p0 p1 s0 s1 s2 rest =>
    exact ⟨rfl, rfl, rest, by rw [encodeOperands, leBytes_ofNat_two, leBytes_ofNat_three]; rfl⟩
  case h_9 l0 l1 h0 h1 rest => exact ⟨rfl, rfl, rest, by rw [encodeOperands, leBytes_ofNat_two, leBytes_ofNat_two]; rfl⟩
  case h_11 a0 a1 data rest => exact ⟨rfl, rfl, rest, by rw [encodeOperands, leBytes_ofNat_two]; rfl⟩
  case h_13 a0 a1 rest => exact ⟨rfl, rfl, rest, by rw [encodeOperands, leBytes_ofNat_two]; rfl⟩
  all_goals exact ⟨rfl, rfl, _, rfl⟩

theorem decode_command_iff {bs : List Byte} {i : Instr} :
    decode bs = .command i ↔ i.WellFormed ∧ ∃ rest, bs = encode i ++ rest := by
  constructor
  · intro h
    unfold decode at h
    split at h
    · cases h
    · split at h
      · cases h
      · rename_i o ho
        split at h
        · rename_i j hj
          cases h
          obtain ⟨rfl, hw, rest, rfl⟩ := encodeOperands_of_decodeOperands hj
          exact ⟨hw, rest, by rw [encode, byte_of_ofByte ho]; rfl⟩
        · cases h
  · rintro ⟨hw, rest, rfl⟩
    exact decode_encode hw rest

/-- Settles O3: what decodes to a command begins with its encoding. -/
theorem decodedBytesAreTheEncoding : Obligations.DecodedBytesAreTheEncoding := by
  intro bs i h
  obtain ⟨hw, rest, rfl⟩ := decode_command_iff.1 h
  refine ⟨hw, ?_, ?_⟩
  · rw [List.length_append, encode_length hw]
    omega
  · rw [← encode_length hw, List.take_left]

/-- Settles O1: each word is the encoding of its command, or its opcode or its length byte says why it is none. -/
theorem sampleWordsDecode : Obligations.SampleWordsDecode := by
  unfold Obligations.SampleWordsDecode
  decide

/-! ### The record of an APPEND -/

theorem decode_append (len : Byte) (rest : List Byte) : decode (0x02 :: len :: rest) =
    if len.toNat - 1 ≤ rest.length then .command (.append len (rest.take (len.toNat - 1))) else .incomplete := by
  refine (decode_opcode .append (len :: rest)).trans ?_
  rw [decodeOperands, takeExactly_eq]
  by_cases hfits : len.toNat - 1 ≤ rest.length
  · simp [hfits]
  · simp [hfits]

/-- Settles O5: the bytes after the length byte are taken or found to be too few. -/
theorem appendTakesItsRecord : Obligations.AppendTakesItsRecord := by
  intro len rest
  rw [decode_append]
  refine ⟨fun _ hshort => if_neg (by omega), fun hlen hfits => ⟨if_pos hfits, ?_⟩, fun hlen => ?_, fun _ => rfl⟩
  · obtain ⟨n, hn⟩ : ∃ n, len.toNat = n + 1 := ⟨len.toNat - 1, by omega⟩
    simp [hn, Nat.add_comm 1]
  · rw [Nat.sub_eq_zero_of_le (by omega), if_pos (Nat.zero_le _), List.take_zero]

/-! ### The length rule (R71) -/

theorem commandLength_encode {i : Instr} (hw : i.WellFormed) (rest : List Byte) :
    commandLength (encode i ++ rest) = some i.length := by
  cases i <;> rfl

theorem commandLength_reserved {op : Byte} (h : Opcode.ofByte? op = none) (rest : List Byte) :
    commandLength (op :: rest) = some 1 := by
  have hop : op.toNat = 0 ∨ 0x0A ≤ op.toNat := (ofByte_none_iff.1 h).imp_left (congrArg BitVec.toNat)
  rw [commandLength]
  split
  case h_10 => rfl -- no opcode of the table
  all_goals omega

/-- Where as many bytes remain as the length rule asks for, the operands can be read. -/
theorem decodeOperands_of_length {o : Opcode} {rest : List Byte} {n : Nat}
    (hn : commandLength (o.byte :: rest) = some n) (hle : n ≤ (o.byte :: rest).length) :
    ∃ i, decodeOperands o rest = some i := by
  cases o with
  | start =>
    cases hn
    match rest, hle with
    | _ :: _ :: _ :: _ :: _ :: _ :: _ :: _, _ => exact ⟨_, rfl⟩
  | append =>
    cases rest with
    | nil => cases hn
    | cons len rest =>
      cases hn
      simp only [List.length_cons] at hle
      rw [decodeOperands, takeExactly_eq, if_pos (by omega)]
      exact ⟨_, rfl⟩
  | crc =>
    cases hn
    match rest, hle with
    | _ :: _ :: _ :: _ :: _, _ => exact ⟨_, rfl⟩
  | bwr =>
    cases hn
    match rest, hle with
    | _ :: _ :: _ :: _, _ => exact ⟨_, rfl⟩
  | brd =>
    cases hn
    match rest, hle with
    | _ :: _ :: _, _ => exact ⟨_, rfl⟩
  | sealMessage | validate | next | reset => exact ⟨_, rfl⟩

/-- What the bytes at CP can be: nothing, a command, a reserved opcode, or too few bytes for their opcode. -/
theorem decode_cases (bs : List Byte) : bs = [] ∨ (∃ i rest, i.WellFormed ∧ bs = encode i ++ rest) ∨
    (∃ op rest, Opcode.ofByte? op = none ∧ bs = op :: rest) ∨ decode bs = .incomplete := by
  cases bs with
  | nil => exact .inl rfl
  | cons op rest =>
    cases hop : Opcode.ofByte? op with
    | none => exact .inr (.inr (.inl ⟨op, rest, hop, rfl⟩))
    | some o =>
      obtain rfl := byte_of_ofByte hop
      cases hi : decodeOperands o rest with
      | none => exact .inr (.inr (.inr (by rw [decode_opcode, hi])))
      | some i =>
        obtain ⟨hw, tail, hbs⟩ := decode_command_iff.1 (by rw [decode_opcode, hi] : decode _ = .command i)
        exact .inr (.inl ⟨i, tail, hw, hbs⟩)

theorem decode_reserved_inv {bs : List Byte} {op : Byte} (h : decode bs = .reserved op) :
    Opcode.ofByte? op = none ∧ ∃ rest, bs = op :: rest := by
  obtain rfl | ⟨i, rest, hw, rfl⟩ | ⟨op', rest, hop, rfl⟩ | hinc := decode_cases bs
  · cases h
  · rw [decode_encode hw] at h
    cases h
  · rw [Machine.decode_reserved hop] at h
    cases h
    exact ⟨hop, rest, rfl⟩
  · rw [hinc] at h
    cases h

theorem decode_finished_iff {bs : List Byte} : decode bs = .finished ↔ bs = [] := by
  refine ⟨fun h => ?_, fun h => h ▸ rfl⟩
  obtain hnil | ⟨i, rest, hw, rfl⟩ | ⟨op, rest, hop, rfl⟩ | hinc := decode_cases bs
  · exact hnil
  · rw [decode_encode hw] at h
    cases h
  · rw [Machine.decode_reserved hop] at h
    cases h
  · rw [hinc] at h
    cases h

theorem decode_incomplete_iff {op : Byte} {rest : List Byte} : decode (op :: rest) = .incomplete ↔
    commandLength (op :: rest) = none ∨ ∃ n, commandLength (op :: rest) = some n ∧ (op :: rest).length < n := by
  constructor
  · intro h
    cases hop : Opcode.ofByte? op with
    | none => simp [decode, hop] at h
    | some o =>
      obtain rfl := byte_of_ofByte hop
      rw [decode_opcode] at h
      refine (Option.eq_none_or_eq_some _).imp_right fun ⟨n, hn⟩ => ⟨n, hn, Nat.lt_of_not_le fun hle => ?_⟩
      obtain ⟨i, hi⟩ := decodeOperands_of_length hn hle
      simp [hi] at h
  · intro h
    obtain hnil | ⟨i, tail, hw, hbs⟩ | ⟨op', tail, hop, hbs⟩ | hinc := decode_cases (op :: rest)
    · cases hnil
    · rw [hbs, commandLength_encode hw, List.length_append, encode_length hw] at h
      simp at h
    · cases hbs
      rw [commandLength_reserved hop] at h
      simp at h
    · exact hinc

/-- Settles O6: each of the four things the bytes can be has the length the rule gives. -/
theorem lengthDecidesCompleteness : Obligations.LengthDecidesCompleteness := by
  refine fun op rest => ⟨decode_incomplete_iff, fun i h => ?_, fun o h => ?_, fun h => ?_⟩
  · obtain ⟨hw, tail, hbs⟩ := decode_command_iff.1 h
    rw [hbs, commandLength_encode hw]
  · obtain ⟨hop, tail, hbs⟩ := decode_reserved_inv h
    cases hbs
    exact ⟨rfl, commandLength_reserved hop rest⟩
  · cases decode_finished_iff.1 h

/-! ### The split of a command stream (R71) -/

/-- Bytes with no complete entry at their head. -/
def NoEntry (bs : List Byte) : Prop := bs = [] ∨ decode bs = .incomplete

theorem item_encode_length_pos (item : StreamItem) : 1 ≤ item.encode.length := by
  cases item with
  | command i => exact Nat.le_add_left 1 _
  | reserved op => exact Nat.le_refl 1

/-- Bytes have no complete entry at their head, or begin with a well-formed one. -/
theorem noEntry_or_item (bs : List Byte) :
    NoEntry bs ∨ ∃ (item : StreamItem) (rest : List Byte), item.wf = true ∧ bs = item.encode ++ rest := by
  obtain hnil | ⟨i, rest, hw, hbs⟩ | ⟨op, rest, hop, hbs⟩ | hinc := decode_cases bs
  · exact .inl (.inl hnil)
  · exact .inr ⟨.command i, rest, hw, hbs⟩
  · exact .inr ⟨.reserved op, rest, Option.isNone_iff_eq_none.2 hop, hbs⟩
  · exact .inl (.inr hinc)

theorem encodeStream_cons (item : StreamItem) (items : List StreamItem) :
    encodeStream (item :: items) = item.encode ++ encodeStream items := List.flatMap_cons

/-- Every byte sequence is some well-formed entries and a tail with no entry at its head. -/
theorem exists_split (bs : List Byte) : ∃ (items : List StreamItem) (tail : List Byte),
    bs = encodeStream items ++ tail ∧ (∀ item ∈ items, item.wf = true) ∧ NoEntry tail := by
  obtain htail | ⟨item, rest, hw, rfl⟩ := noEntry_or_item bs
  · exact ⟨[], bs, rfl, by simp, htail⟩
  · obtain ⟨items, tail, rfl, hitems, htail⟩ := exists_split rest
    exact ⟨item :: items, tail, by rw [encodeStream_cons, List.append_assoc],
      List.forall_mem_cons.2 ⟨hw, hitems⟩, htail⟩
termination_by bs.length
decreasing_by
  have := item_encode_length_pos item
  subst_vars
  rw [List.length_append]
  omega

theorem splitStreamWithin_noEntry {bs : List Byte} (h : NoEntry bs) (fuel : Nat) :
    splitStreamWithin fuel bs = ([], bs) := by
  cases fuel with
  | zero => rfl
  | succ fuel =>
    obtain rfl | hinc := h
    · rfl
    · rw [splitStreamWithin, hinc]

theorem splitStreamWithin_item {item : StreamItem} (hw : item.wf = true) (fuel : Nat) (rest : List Byte) :
    splitStreamWithin (fuel + 1) (item.encode ++ rest) =
      (item :: (splitStreamWithin fuel rest).1, (splitStreamWithin fuel rest).2) := by
  cases item with
  | command i =>
    have hdrop : (encode i ++ rest).drop i.length = rest := by
      rw [← encode_length hw, List.drop_left]
    rw [StreamItem.encode, splitStreamWithin, decode_encode hw]
    simp only [hdrop]
  | reserved op =>
    have hop : decode ([op] ++ rest) = .reserved op := Machine.decode_reserved (Option.isNone_iff_eq_none.1 hw) rest
    rw [StreamItem.encode, splitStreamWithin, hop]
    rfl

/-- With a bound that is large enough, splitting gives back any well-formed entries and tail. -/
theorem splitStreamWithin_eq {items : List StreamItem} {tail : List Byte} (hitems : ∀ item ∈ items, item.wf = true)
    (htail : NoEntry tail) {fuel : Nat} (hfuel : (encodeStream items ++ tail).length ≤ fuel) :
    splitStreamWithin fuel (encodeStream items ++ tail) = (items, tail) := by
  induction items generalizing fuel with
  | nil => exact splitStreamWithin_noEntry htail fuel
  | cons item items ih =>
    obtain ⟨hw, hitems⟩ := List.forall_mem_cons.1 hitems
    have hpos := item_encode_length_pos item
    rw [encodeStream_cons, List.append_assoc] at hfuel ⊢
    rw [List.length_append] at hfuel
    obtain ⟨fuel, rfl⟩ : ∃ k, fuel = k + 1 := ⟨fuel - 1, by omega⟩
    rw [splitStreamWithin_item hw, ih hitems (by omega)]

theorem splitStream_eq {items : List StreamItem} {tail : List Byte} (hitems : ∀ item ∈ items, item.wf = true)
    (htail : NoEntry tail) : splitStream (encodeStream items ++ tail) = (items, tail) :=
  splitStreamWithin_eq hitems htail (Nat.le_refl _)

/-- Settles O7: some split exists, and the split of its bytes is itself. -/
theorem streamSplitsUniquely : Obligations.StreamSplitsUniquely := by
  refine ⟨fun bs => ?_, fun items tail => splitStream_eq⟩
  obtain ⟨items, tail, rfl, hitems, htail⟩ := exists_split bs
  rw [splitStream_eq hitems htail]
  exact ⟨rfl, hitems, htail⟩

end Sys2Proof
end

section
/-! The statement of 30_encoding.md, section 5: the bytes of a response. -/

namespace Sys2Proof.Machine

theorem Response.bytes_eq (r : Response) : r.bytes = [r.status.code, r.v0.extractLsb' 0 8, r.v0.extractLsb' 8 8,
    r.v1.extractLsb' 0 8, r.v1.extractLsb' 8 8] := by
  rw [Response.bytes, leBytes_two, leBytes_two]
  rfl

theorem Status.code_injective {st st' : Status} (h : st.code = st'.code) : st = st' := by
  cases st <;> cases st' <;> revert h <;> decide

/-- A 16-bit value is known from its bytes. -/
theorem leBytes_two_injective {v w : Word16} (h : leBytes 2 v.toNat = leBytes 2 w.toNat) : v = w := by
  rw [← ofNat_leValue_two v (leBytes_two v), ← leBytes_two, h, leBytes_two]
  exact ofNat_leValue_two w (leBytes_two w)

theorem Response.bytes_injective {r r' : Response} (h : r.bytes = r'.bytes) : r = r' := by
  obtain ⟨hcode, hvalues⟩ := List.cons.inj h
  obtain ⟨h0, h1⟩ := List.append_inj hvalues (by simp)
  cases r
  cases r'
  exact Response.mk.injEq .. ▸ ⟨Status.code_injective hcode, leBytes_two_injective h0, leBytes_two_injective h1⟩

/-- Settles O9: the two values of a response are known from their bytes, and its status from its code. -/
theorem responseIsFiveBytes : Obligations.ResponseIsFiveBytes :=
  ⟨Response.bytes_eq, fun _ _ => Response.bytes_injective, rfl, rfl⟩

end Sys2Proof.Machine
end

section
/-! What every command does, whether it fails or succeeds, and the rules over all commands that follow (10_state.md
sections 3 and 6, 20_memory.md section 1, 60_exceptions.md sections 1 and 2). -/

namespace Sys2Proof.Machine

open Sys2Proof.Claims

/-! ### The two ways a command ends -/

/-- The state after a command that answers an error: the response, and PHASE (60_exceptions.md section 1). -/
def failed (p : Phase) (st : Status) (s : State) : State := (s.setPhase p).emit ⟨st, 0, 0⟩

/-- An error the command may answer in PHASE `p` (R141): SequenceError where it is not allowed, and only there. -/
structure Fails (i : Instr) (p : Phase) (st : Status) : Prop where
  notOk : st ≠ .ok
  listed : st ∈ i.mayAnswer
  sequence : st = .sequenceError ↔ i.allowedIn p = false

/-- The state after START (R90). -/
def opened (mfr prod : Byte) (pip : Word16) (sensor : Word24) (s : State) : State :=
  ((({ s with mem := s.mem.writeRange 0 (headerBytes mfr prod pip sensor) }).setEom 8).setPhase .encoding).emit
    ⟨.ok, 8, 0⟩

/-- The state after a VALIDATE that answers OK (R120). -/
def validated (s : State) : State :=
  (((s.setEom 8).setFstart (5 + (s.buf 7).toNat)).setPhase .decoding).emit
    ⟨.ok, BitVec.ofNat 16 (5 + (s.buf 7).toNat), 0⟩

/-- The state after a NEXT that answers OK (R121). -/
def passed (s : State) : State :=
  (s.setEom (s.eom.toNat + (s.buf s.eom.toNat).toNat)).emit ⟨.ok, s.eom, (s.buf s.eom.toNat).setWidth 16⟩

/-- The state after RESET (R93). -/
def rewound (s : State) : State := ((s.setEom 5).setPhase .idle).emit ⟨.ok, 5, 0⟩

/-- What each command does where it answers OK, with what its checks have found. -/
inductive Succeeds (s : State) : Instr → State → Prop where
  | start (mfr prod : Byte) (pip : Word16) (sensor : Word24) :
    Succeeds s (.start mfr prod pip sensor) (opened mfr prod pip sensor s)
  | append {len : Byte} {body : List Byte} (hphase : s.phase = .encoding) (hlen : 2 ≤ len.toNat)
    (hfits : s.eom.toNat + len.toNat ≤ s.cap.bytes) : Succeeds s (.append len body) (appended len body s)
  | sealMessage (hphase : s.phase = .encoding) (hfits : s.eom.toNat + 3 ≤ s.cap.bytes) (hmin : 5 ≤ s.eom.toNat) :
    Succeeds s .sealMessage (sealed s)
  | validate (hmin : 3 ≤ (s.buf 7).toNat) (hfits : 5 + (s.buf 7).toNat + 3 ≤ s.cap.bytes)
    (hcrc : (crc16 (s.bufRange 5 (s.buf 7).toNat)).toNat = storedCrc s (5 + (s.buf 7).toNat))
    (heod : s.buf (5 + (s.buf 7).toNat) = 0x00) :
    Succeeds s .validate (validated s)
  | next (hphase : s.phase = .decoding) (hlen : 2 ≤ (s.buf s.eom.toNat).toNat)
    (hfits : s.eom.toNat + (s.buf s.eom.toNat).toNat ≤ s.fstart.toNat) : Succeeds s .next (passed s)
  | reset : Succeeds s .reset (rewound s)
  | crc (lo hi : Word16) :
    Succeeds s (.crc lo hi) (s.emit ⟨.ok, crc16 (s.bufRange lo.toNat (hi.toNat - lo.toNat)), 0⟩)
  | bwr {addr : Word16} (data : Byte) (hfits : addr.toNat < s.cap.bytes) :
    Succeeds s (.bwr addr data) (({ s with mem := s.mem.write addr.toNat data }).emit ⟨.ok, 0, 0⟩)
  | brd (addr : Word16) : Succeeds s (.brd addr) (s.emit ⟨.ok, (s.buf addr.toNat).setWidth 16, 0⟩)

/-- A command answers one of its errors, with PHASE as R26 says and nothing else changed, or does what it does on OK. -/
theorem exec_cases {i : Instr} {s t : State} (h : exec i s = .next t) :
    (∃ st, Fails i s.phase st ∧ t = failed (i.phaseAfter s.phase st) st s) ∨ Succeeds s i t := by
  cases i with
  | start mfr prod pip sensor =>
    rw [exec, execStart_eq] at h
    cases h
    exact .inr (.start mfr prod pip sensor)
  | append len body =>
    obtain ⟨hp, rfl⟩ | ⟨hp, hlen, rfl⟩ | ⟨hp, hlen, hcap, rfl⟩ | ⟨hp, hlen, hcap, rfl⟩ := execAppend_inv h
    · exact .inl ⟨.sequenceError, ⟨by decide, by simp [Instr.mayAnswer], by simp [Instr.allowedIn, hp]⟩, rfl⟩
    · exact .inl ⟨.malformedRecord, ⟨by decide, by simp [Instr.mayAnswer], by simp [Instr.allowedIn, hp]⟩, rfl⟩
    · exact .inl ⟨.boundsExceeded, ⟨by decide, by simp [Instr.mayAnswer], by simp [Instr.allowedIn, hp]⟩, rfl⟩
    · exact .inr (.append hp hlen hcap)
  | sealMessage =>
    obtain ⟨hp, rfl⟩ | ⟨hp, hcap, rfl⟩ | ⟨hp, hcap, hmin, rfl⟩ := execSeal_inv h
    · exact .inl ⟨.sequenceError, ⟨by decide, by simp [Instr.mayAnswer], by simp [Instr.allowedIn, hp]⟩, rfl⟩
    · exact .inl ⟨.boundsExceeded, ⟨by decide, by simp [Instr.mayAnswer], by simp [Instr.allowedIn, hp]⟩, rfl⟩
    · exact .inr (.sealMessage hp hcap hmin)
  | validate =>
    rw [exec, execValidate_eq] at h
    have hmismatch : Fails .validate s.phase .checksumMismatch :=
      ⟨by decide, by simp [Instr.mayAnswer], by simp [Instr.allowedIn]⟩
    have hsentinel : Fails .validate s.phase .malformedSentinel :=
      ⟨by decide, by simp [Instr.mayAnswer], by simp [Instr.allowedIn]⟩
    dsimp only at h
    split at h
    · cases h
      exact .inl ⟨_, hmismatch, rfl⟩
    split at h
    · cases h
      exact .inl ⟨_, hmismatch, rfl⟩
    rename_i hcrc
    split at h
    · cases h
      exact .inl ⟨_, hsentinel, rfl⟩
    · rename_i heod
      cases h
      exact .inr (.validate (by omega) (by omega) (not_not.1 hcrc) (not_not.1 heod))
  | next =>
    obtain ⟨hp, rfl⟩ | ⟨hp, heq, rfl⟩ | ⟨hp, hne, hcap, hbad, rfl⟩ | ⟨hp, hne, hcap, hlen, hend, rfl⟩ := execNext_inv h
    · exact .inl ⟨.sequenceError, ⟨by decide, by simp [Instr.mayAnswer], by simp [Instr.allowedIn, hp]⟩, rfl⟩
    · exact .inl ⟨.iterationExhausted, ⟨by decide, by simp [Instr.mayAnswer], by simp [Instr.allowedIn, hp]⟩, rfl⟩
    · exact .inl ⟨.malformedRecord, ⟨by decide, by simp [Instr.mayAnswer], by simp [Instr.allowedIn, hp]⟩, rfl⟩
    · exact .inr (.next hp hlen hend)
  | reset =>
    cases h
    exact .inr .reset
  | crc lo hi =>
    rw [exec, execCrc_eq] at h
    split at h
    · cases h
      exact .inl ⟨.boundsExceeded, ⟨by decide, by simp [Instr.mayAnswer], by simp [Instr.allowedIn]⟩, rfl⟩
    · cases h
      exact .inr (.crc lo hi)
  | bwr addr data =>
    rw [exec, execBwr_eq] at h
    split at h
    · cases h
      exact .inl ⟨.boundsExceeded, ⟨by decide, by simp [Instr.mayAnswer], by simp [Instr.allowedIn]⟩, rfl⟩
    · cases h
      exact .inr (.bwr data (by omega))
  | brd addr =>
    rw [exec, execBrd_eq] at h
    split at h
    · cases h
      exact .inl ⟨.boundsExceeded, ⟨by decide, by simp [Instr.mayAnswer], by simp [Instr.allowedIn]⟩, rfl⟩
    · cases h
      exact .inr (.brd addr)

/-! ### The response and PHASE -/

theorem Succeeds.answers {i : Instr} {s t : State} (h : Succeeds s i t) : ∃ v0 v1, Answers s t ⟨.ok, v0, v1⟩ ∧
    i.allowedIn s.phase = true ∧ t.phase = i.phaseAfter s.phase .ok := by
  cases h with
  | append hphase | sealMessage hphase | next hphase =>
    exact ⟨_, _, ⟨rfl, rfl, rfl, rfl⟩, by simp [Instr.allowedIn, hphase], rfl⟩
  | _ => exact ⟨_, _, ⟨rfl, rfl, rfl, rfl⟩, rfl, rfl⟩

theorem ok_mem_mayAnswer (i : Instr) : Status.ok ∈ i.mayAnswer := by
  cases i <;> exact List.mem_cons_self

/-- The one response of a command, the channels and CAPACITY it leaves as they were, and PHASE after it. -/
theorem exec_answers {i : Instr} {s t : State} (h : exec i s = .next t) : ∃ r : Response, Answers s t r ∧
    r.status ∈ i.mayAnswer ∧ (r.status = .sequenceError ↔ i.allowedIn s.phase = false) ∧
    t.phase = i.phaseAfter s.phase r.status ∧ (r.status ≠ .ok → r.v0 = 0 ∧ r.v1 = 0) := by
  obtain ⟨st, hfails, rfl⟩ | hok := exec_cases h
  · exact ⟨⟨st, 0, 0⟩, ⟨rfl, rfl, rfl, rfl⟩, hfails.listed, hfails.sequence, rfl, fun _ => ⟨rfl, rfl⟩⟩
  · obtain ⟨v0, v1, hanswers, hallowed, hphase⟩ := hok.answers
    exact ⟨⟨.ok, v0, v1⟩, hanswers, ok_mem_mayAnswer i, by simp [hallowed], hphase, fun h => absurd rfl h⟩

/-- Settles O11: the status is that of the command's one response. -/
theorem statusesOfEachCommand : Obligations.StatusesOfEachCommand := by
  intro i s t h
  obtain ⟨r, hanswers, hlisted, hsequence, _, _⟩ := exec_answers h
  exact ⟨r, hanswers.1, hlisted, hsequence⟩

/-- Settles O31: PHASE goes with the status of the command's one response. -/
theorem phaseByCommand : Obligations.PhaseByCommand := by
  intro i s t h
  obtain ⟨r, hanswers, _, _, hphase, _⟩ := exec_answers h
  exact ⟨r, hanswers.1, hphase⟩

/-! ### FSTART and BUF -/

theorem Succeeds.fstart {i : Instr} {s t : State} (h : Succeeds s i t) (hi : i ≠ .validate) : t.fstart = s.fstart := by
  cases h with
  | validate => exact absurd rfl hi
  | _ => rfl

theorem exec_fstart {i : Instr} {s t : State} (h : exec i s = .next t) (hi : i ≠ .validate) : t.fstart = s.fstart := by
  obtain ⟨st, hfails, rfl⟩ | hok := exec_cases h
  · rfl
  · exact hok.fstart hi

theorem exec_validate_cases {s t : State} (h : exec .validate s = .next t) :
    (∃ st, t = failed .rejected st s) ∨ Succeeds s .validate t := by
  refine (exec_cases h).imp_left fun ⟨st, hfails, ht⟩ => ⟨st, ht.trans ?_⟩
  cases st with
  | ok => exact absurd rfl hfails.notOk
  | _ => rfl

theorem validated_fstart (s : State) : (validated s).fstart.toNat = 5 + (s.buf 7).toNat := by
  have := (s.buf 7).isLt
  simp only [validated, emit_fstart, setPhase_fstart, setFstart_fstart, BitVec.toNat_ofNat]
  omega

/-- Settles O32: a failed VALIDATE leaves FSTART and rejects; one that succeeds writes it and reports it. -/
theorem onlyValidateWritesFstart : Obligations.OnlyValidateWritesFstart := by
  refine fun i s t h => ⟨exec_fstart h, ?_, ?_⟩
  · rintro rfl hphase
    obtain ⟨st, rfl⟩ | hok := exec_validate_cases h
    · cases hphase
    · cases hok
      exact ⟨validated_fstart s, rfl⟩
  · rintro rfl hphase
    obtain ⟨st, rfl⟩ | hok := exec_validate_cases h
    · rfl
    · cases hok
      exact absurd rfl hphase

/-- Settles O33: a failed command writes nothing, and one that succeeds its own bytes. -/
theorem onlyListedBytesAreWritten : Obligations.OnlyListedBytesAreWritten := by
  intro i s t h a ha
  obtain ⟨st, hfails, rfl⟩ | hok := exec_cases h
  · rfl
  · cases hok with
    | start mfr prod pip sensor =>
      exact buf_of_mem_eq_writeRange_outside (t := opened mfr prod pip sensor s) rfl
        (by rw [headerBytes_length]; simp only [Instr.mayWrite] at ha; omega)
    | append =>
      rename_i len body _ _ _
      have := recordBytes_length_le len body
      exact buf_of_mem_eq_writeRange_outside (t := appended len body s) rfl
        (by simp only [Instr.mayWrite] at ha; omega)
    | sealMessage =>
      simp only [Instr.mayWrite, not_or] at ha
      rw [sealed_buf_outside_footer (by omega), lengthWritten_buf_ne ha.1]
    | bwr => exact (read_write _ _ _ _).trans (if_neg ha)
    | _ => rfl

/-! ### Failures -/

theorem Fails.phaseAfter {i : Instr} {p : Phase} {st : Status} (h : Fails i p st) : i.phaseAfter p st = p ∨
    i.phaseAfter p st = .aborted ∧ (i.opcode = .append ∨ i.opcode = .sealMessage) ∧ st = .boundsExceeded ∨
    i.phaseAfter p st = .rejected ∧ i = .validate := by
  have hnotOk := h.notOk
  have hlisted := h.listed
  unfold Instr.phaseAfter
  split <;> simp_all [Instr.opcode, Instr.mayAnswer]

/-- A response that is not OK is that of a failure. -/
theorem exec_not_ok {i : Instr} {s t : State} {r : Response} (h : exec i s = .next t) (hout : t.out = s.out ++ [r])
    (hr : r.status ≠ .ok) : Fails i s.phase r.status ∧ t = failed (i.phaseAfter s.phase r.status) r.status s ∧
      r = ⟨r.status, 0, 0⟩ := by
  obtain ⟨st, hfails, rfl⟩ | hok := exec_cases h
  · obtain rfl : (⟨st, 0, 0⟩ : Response) = r := by simpa using List.append_cancel_left hout
    exact ⟨hfails, rfl, rfl⟩
  · obtain ⟨v0, v1, hanswers, _⟩ := hok.answers
    rw [hanswers.1] at hout
    obtain rfl : (⟨.ok, v0, v1⟩ : Response) = r := by simpa using List.append_cancel_left hout
    exact absurd rfl hr

/-- Settles O34: what a failure leaves, and its PHASE by the table. -/
theorem failureChangesAtMostPhase : Obligations.FailureChangesAtMostPhase := by
  intro i s t r h hout hr
  obtain ⟨hfails, rfl, -⟩ := exec_not_ok h hout hr
  exact ⟨rfl, hfails.phaseAfter⟩

end Sys2Proof.Machine
end

section
/-! Rules over sequences of commands (41_framer.md section 4, 60_exceptions.md section 1, 70_reset_and_hazards.md
section 3). -/

namespace Sys2Proof.Machine

open Sys2Proof.Claims

/-- What every command of a list keeps, the list keeps. -/
theorem execAll_keeps {P : State → Prop} {is : List Instr}
    (hstep : ∀ i ∈ is, ∀ s t, exec i s = .next t → P s → P t) {s t : State} (h : execAll is s = .next t) (hs : P s) :
    P t := by
  induction is generalizing s with
  | nil =>
    cases h
    exact hs
  | cons i is ih =>
    obtain ⟨u, hu, ht⟩ := execAll_cons.1 h
    obtain ⟨hi, his⟩ := List.forall_mem_cons.1 hstep
    exact ih his ht (hi s u hu hs)

/-! ### The table "PHASE by command", read backwards (R26) -/

theorem phaseAfter_encoding {i : Instr} {p : Phase} {st : Status} (h : i.phaseAfter p st = .encoding) :
    i.opcode = .start ∨ p = .encoding := by
  unfold Instr.phaseAfter at h
  split at h <;> simp_all [Instr.opcode]

theorem phaseAfter_decoding {i : Instr} {p : Phase} {st : Status} (h : i.phaseAfter p st = .decoding) :
    i = .validate ∨ p = .decoding := by
  unfold Instr.phaseAfter at h
  split at h <;> simp_all

theorem phaseAfter_aborted {i : Instr} {p : Phase} {st : Status} (h : i.phaseAfter p st = .aborted) :
    (i.opcode = .append ∨ i.opcode = .sealMessage) ∧ st = .boundsExceeded ∨ p = .aborted := by
  unfold Instr.phaseAfter at h
  split at h <;> simp_all [Instr.opcode]

/-- Only START opens a message. -/
theorem exec_not_encoding {i : Instr} {s t : State} (hi : i.opcode ≠ .start) (h : exec i s = .next t)
    (hs : s.phase ≠ .encoding) : t.phase ≠ .encoding := by
  obtain ⟨r, _, _, _, hphase, _⟩ := exec_answers h
  rw [hphase]
  exact fun ht => (phaseAfter_encoding ht).elim hi hs

/-- Only VALIDATE opens an iteration. -/
theorem exec_not_decoding {i : Instr} {s t : State} (hi : i ≠ .validate) (h : exec i s = .next t)
    (hs : s.phase ≠ .decoding) : t.phase ≠ .decoding := by
  obtain ⟨r, _, _, _, hphase, _⟩ := exec_answers h
  rw [hphase]
  exact fun ht => (phaseAfter_decoding ht).elim hi hs

/-- Outside ENCODING the framer's two commands are refused until a START. -/
theorem framer_refused {is : List Instr} {s t : State} (hs : s.phase ≠ .encoding) (his : ∀ i ∈ is, i.opcode ≠ .start)
    (h : execAll is s = .next t) : exec .sealMessage t = .next (answered t ⟨.sequenceError, 0, 0⟩) ∧
    ∀ len body, exec (.append len body) t = .next (answered t ⟨.sequenceError, 0, 0⟩) := by
  have ht : t.phase ≠ .encoding := execAll_keeps (fun i hi _ _ => exec_not_encoding (his i hi)) h hs
  exact ⟨exec_seal_outside_encoding ht, exec_append_outside_encoding ht⟩

/-- Settles O20: after RESET the phase is neither ENCODING nor DECODING, and only START and VALIDATE change that. -/
theorem resetRewindsCursor : Obligations.ResetRewindsCursor := by
  refine ⟨rfl, fun s => rfl, fun is s t h => ?_⟩
  obtain ⟨u, hu, ht⟩ := execAll_cons.1 h
  obtain rfl : rewound s = u := by cases hu; rfl
  refine ⟨fun his => framer_refused (by simp [rewound]) his ht, fun his => exec_next_outside_decoding ?_⟩
  exact execAll_keeps (P := (·.phase ≠ .decoding)) (fun i hi _ _ => exec_not_decoding (his i hi)) ht (by simp [rewound])

/-- A failure in ENCODING that does not abort, and is not VALIDATE's, leaves PHASE. -/
theorem phase_of_other_failure {i : Instr} {p : Phase} {st : Status} (h : Fails i p st) (hi : i ≠ .validate)
    (habort : ¬ ((i.opcode = .append ∨ i.opcode = .sealMessage) ∧ st = .boundsExceeded)) : i.phaseAfter p st = p := by
  obtain hp | ⟨-, hbounds⟩ | ⟨-, hvalidate⟩ := h.phaseAfter
  · exact hp
  · exact absurd hbounds habort
  · exact absurd hvalidate hi

/-- Settles O35: the table's entries that are ABORTED, and the failures whose entry is the PHASE before. -/
theorem abortedUntilNextStart : Obligations.AbortedUntilNextStart := by
  refine ⟨fun i s t h ht hs => ?_, fun is s t hs his => framer_refused (by simp [hs]) his,
    fun i s t r _ hi h hout hr habort => ?_⟩
  · obtain ⟨r, hanswers, _, _, hphase, hzero⟩ := exec_answers h
    obtain ⟨hi, hr⟩ | hs' := phaseAfter_aborted (hphase.symm.trans ht)
    · obtain ⟨st, v0, v1⟩ := r
      obtain rfl : st = .boundsExceeded := hr
      obtain ⟨rfl, rfl⟩ := hzero (by simp)
      exact ⟨hi, hanswers.1⟩
    · exact absurd hs' hs
  · obtain ⟨hfails, rfl, hzero⟩ := exec_not_ok h hout hr
    rw [phase_of_other_failure hfails hi habort, hzero]
    rfl

/-- Settles O36: by induction on the commands, of which only a VALIDATE that answers OK opens the iteration. -/
theorem nextRefusedUntilValidateSucceeds : Obligations.NextRefusedUntilValidateSucceeds := by
  intro is
  induction is with
  | nil =>
    intro s t hs h
    cases h
    exact .inl (exec_next_outside_decoding hs)
  | cons i is ih =>
    intro s t hs h
    obtain ⟨u, hu, ht⟩ := execAll_cons.1 h
    by_cases hdec : u.phase = .decoding
    · obtain rfl : i = .validate := by_contra fun hi => exec_not_decoding hi hu hs hdec
      obtain ⟨-, hok, -⟩ := onlyValidateWritesFstart .validate s u hu
      exact .inr ⟨[], is, s, u, rfl, rfl, hu, (hok rfl hdec).2⟩
    · refine (ih u t hdec ht).imp_right ?_
      rintro ⟨before, after, v, w, rfl, hv, hw⟩
      exact ⟨i :: before, after, v, w, rfl, execAll_cons.2 ⟨u, hu, hv⟩, hw⟩

/-- A command that only reads may write no address (R163). -/
theorem not_mayWrite_of_readsOnly {i : Instr} (h : i.opcode.readsOnly = true) (s : State) (a : Nat) :
    ¬ i.mayWrite s a := by
  cases i with
  | start | append | sealMessage | bwr => cases h
  | _ => exact id

/-- Settles O37: by induction on the commands, none of which may write a byte. -/
theorem viewSurvivesReadingCommands : Obligations.ViewSurvivesReadingCommands := by
  intro is s t his h a
  refine execAll_keeps (P := fun u => u.buf a = s.buf a) (fun i hi u v hu hkept => ?_) h rfl
  exact (onlyListedBytesAreWritten i u v hu a (not_mayWrite_of_readsOnly (his i hi) u a)).trans hkept

end Sys2Proof.Machine
end

section
/-! The invariant of the block (10_state.md section 8): it holds after power-on, every command keeps
it, and from a state that has it every command answers. -/

namespace Sys2Proof.Machine

open Sys2Proof.Claims

/-! ### Power-on (10_state.md section 6) -/

theorem powerOn_inv (cap : Capacity) {draw : Memory} (hwf : draw.wf = true) (hwithin : draw.within cap.bytes = true) :
    (State.powerOn cap draw).Inv where
  memWf := hwf
  memWithin := hwithin
  eomBound := Nat.le_trans (by decide : 5 ≤ 11) cap.least
  fstartBound := .inl rfl
  idleCursor := fun _ => rfl
  encodingCursor := nofun
  sealedCursor := nofun
  decodingCursor := nofun
  cpBound := Nat.le_refl 0
  outBound := Nat.le_refl 0

/-- Settles O27: the values after power-on, and an empty draw for the reset state. -/
theorem powerOnMeetsInvariant : Obligations.PowerOnMeetsInvariant :=
  ⟨fun cap _ => powerOn_inv cap, powerOn_inv _ rfl rfl⟩

theorem read_ofFun (f : Nat → Byte) (lo n a : Nat) :
    (Memory.ofFun f lo n).read a = if lo ≤ a ∧ a < lo + n then f a else unlistedByte := by
  induction n generalizing lo with
  | zero => rw [if_neg (by omega)]; rfl
  | succ n ih =>
    by_cases ha : a = lo
    · subst ha
      rw [Memory.ofFun]
      split
      · rename_i hf
        simp [ih, hf]
      · simp [Memory.read]
    · have htail : (Memory.ofFun f lo (n + 1)).read a = (Memory.ofFun f (lo + 1) n).read a := by
        rw [Memory.ofFun]
        split
        · rfl
        · simp [Memory.read, ha]
      rw [htail, ih]
      congr 1
      simp only [eq_iff_iff]
      omega

theorem within_ofFun (f : Nat → Byte) {lo n bound : Nat} (h : lo + n ≤ bound) :
    (Memory.ofFun f lo n).within bound = true := by
  induction n generalizing lo with
  | zero => rfl
  | succ n ih =>
    have htail := ih (lo := lo + 1) (by omega)
    rw [Memory.ofFun]
    split
    · exact htail
    · exact Bool.and_eq_true_iff.2 ⟨decide_eq_true (by omega), htail⟩

/-- Settles O28: the canonical cells of any assignment of bytes are a draw that reads as it. -/
theorem powerOnResetValues : Obligations.PowerOnResetValues := by
  refine ⟨fun s draw => ⟨rfl, rfl, rfl, rfl, rfl, fun _ => rfl⟩, fun s f => ?_,
    fun s => ⟨rewound s, rfl, rfl, rfl, rfl, fun _ => rfl⟩⟩
  refine ⟨Memory.ofFun f 0 s.cap.bytes, wfFrom_ofFun f 0 _, within_ofFun f (by omega), fun a ha => ?_⟩
  exact (read_ofFun f 0 _ a).trans (if_pos (by omega))

/-! ### The canonical form (log entry 1) -/

theorem read_below {lo a : Nat} {m : Memory} (h : m.wfFrom lo = true) (ha : a < lo) : m.read a = unlistedByte := by
  induction m generalizing lo with
  | nil => rfl
  | cons c m ih =>
    obtain ⟨b, v⟩ := c
    simp only [Memory.wfFrom, Bool.and_eq_true, decide_eq_true_eq] at h
    obtain ⟨⟨hb, -⟩, htail⟩ := h
    rw [Memory.read, if_neg (by omega), ih htail (by omega)]

/-- The first listed byte differs from what a content with no cell up to its address reads there. -/
theorem read_cons_ne {lo lo' b : Nat} {v : Byte} {m m' : Memory} (h : Memory.wfFrom lo ((b, v) :: m) = true)
    (h' : m'.wfFrom lo' = true) (hb : b < lo') : Memory.read ((b, v) :: m) b ≠ m'.read b := by
  simp only [Memory.wfFrom, Bool.and_eq_true, decide_eq_true_eq] at h
  rw [read_below h' hb, Memory.read, if_pos rfl]
  exact h.1.2

theorem wfFrom_cons_self {lo b : Nat} {v : Byte} {m : Memory} (h : Memory.wfFrom lo ((b, v) :: m) = true) :
    Memory.wfFrom b ((b, v) :: m) = true := by
  simp only [Memory.wfFrom, Bool.and_eq_true, decide_eq_true_eq] at h ⊢
  exact ⟨⟨Nat.le_refl b, h.1.2⟩, h.2⟩

theorem wfFrom_tail {lo b : Nat} {v : Byte} {m : Memory} (h : Memory.wfFrom lo ((b, v) :: m) = true) :
    m.wfFrom (b + 1) = true := (Bool.and_eq_true_iff.1 h).2

theorem eq_of_read_eq {m m' : Memory} {lo : Nat} (hm : m.wfFrom lo = true) (hm' : m'.wfFrom lo = true)
    (h : ∀ a, m.read a = m'.read a) : m = m' := by
  induction m generalizing m' lo with
  | nil =>
    cases m' with
    | nil => rfl
    | cons c m' => exact absurd (h c.1).symm (read_cons_ne hm' (lo' := c.1 + 1) (m' := []) rfl (Nat.lt_succ_self _))
  | cons c m ih =>
    obtain ⟨b, v⟩ := c
    cases m' with
    | nil => exact absurd (h b) (read_cons_ne hm (lo' := b + 1) (m' := []) rfl (Nat.lt_succ_self _))
    | cons c' m' =>
      obtain ⟨b', v'⟩ := c'
      obtain hlt | rfl | hgt := Nat.lt_trichotomy b b'
      · exact absurd (h b) (read_cons_ne hm (wfFrom_cons_self hm') hlt)
      · have hv : v = v' := by simpa [Memory.read] using h b
        have htail : ∀ a, Memory.read m a = Memory.read m' a := fun a => by
          by_cases ha : a = b
          · rw [ha, read_below (wfFrom_tail hm) (Nat.lt_succ_self b), read_below (wfFrom_tail hm') (Nat.lt_succ_self b)]
          · simpa [Memory.read, ha] using h a
        rw [hv, ih (wfFrom_tail hm) (wfFrom_tail hm') htail]
      · exact absurd (h b').symm (read_cons_ne hm' (wfFrom_cons_self hm) hgt)

/-- Settles O29: by induction on the cells; where the first addresses differ, the lower one reads differently. -/
theorem canonicalBuffersReadingAlikeAreEqual : Obligations.CanonicalBuffersReadingAlikeAreEqual :=
  fun _ _ => eq_of_read_eq

/-! ### Every command keeps the block's invariant -/

/-- In DECODING the cursor and FSTART lie where R33 says. -/
theorem decoding_bounds {s : State} (hs : s.BlockInv) (hphase : s.phase = .decoding) :
    8 ≤ s.eom.toNat ∧ s.eom.toNat ≤ s.fstart.toNat ∧ s.fstart.toNat + 3 ≤ s.cap.bytes := by
  obtain ⟨hmin, hmax⟩ := hs.decodingCursor hphase
  refine ⟨hmin, hmax, ?_⟩
  obtain hzero | ⟨-, hfits⟩ := hs.fstartBound
  · rw [hzero] at hmax
    exact absurd (Nat.le_trans hmin hmax) (by decide)
  · exact hfits

/-- A failure leaves PHASE, or moves it to one that asks nothing of the cursor. -/
theorem failed_blockInv {i : Instr} {s : State} {st : Status} (hs : s.BlockInv) (h : Fails i s.phase st) :
    (failed (i.phaseAfter s.phase st) st s).BlockInv := by
  obtain hp | ⟨hp, -⟩ | ⟨hp, -⟩ := h.phaseAfter <;> rw [hp]
  · exact { hs with }
  all_goals
    exact { hs with idleCursor := nofun, encodingCursor := nofun, sealedCursor := nofun, decodingCursor := nofun }

theorem appended_blockInv {s : State} {len : Byte} (body : List Byte) (hs : s.BlockInv) (hphase : s.phase = .encoding)
    (hfits : s.eom.toNat + len.toNat ≤ s.cap.bytes) : (appended len body s).BlockInv := by
  have hlen := recordBytes_length_le len body
  have heom : (appended len body s).eom.toNat = s.eom.toNat + len.toNat := toNat_ofNat_of_le_cap hfits
  have hp : (appended len body s).phase = .encoding := hphase
  have hmin : 8 ≤ s.eom.toNat := hs.encodingCursor hphase
  exact {
    memWf := wf_writeRange _ _ hs.memWf
    memWithin := within_writeRange _ _ _ (Nat.le_trans (Nat.add_le_add_left hlen _) hfits) hs.memWithin
    eomBound := heom ▸ hfits
    fstartBound := hs.fstartBound
    idleCursor := by simp [hp]
    encodingCursor := fun _ => by rw [heom, headerSize]; omega
    sealedCursor := by simp [hp]
    decodingCursor := by simp [hp] }

theorem sealed_blockInv {s : State} (hs : s.BlockInv) (hphase : s.phase = .encoding)
    (hfits : s.eom.toNat + 3 ≤ s.cap.bytes) : (sealed s).BlockInv := by
  have heom : (sealed s).eom.toNat = s.eom.toNat + 3 := toNat_ofNat_of_le_cap hfits
  have hmin : 8 ≤ s.eom.toNat := hs.encodingCursor hphase
  exact {
    memWf := wf_writeRange _ _ (wf_writeRange _ _ hs.memWf)
    memWithin := within_writeRange _ _ _ (by rw [footerBytes_length]; exact hfits)
      (within_writeRange _ _ _ (Nat.le_trans (by decide : 8 ≤ 11) s.cap.least) hs.memWithin)
    eomBound := heom ▸ hfits
    fstartBound := hs.fstartBound
    idleCursor := nofun
    encodingCursor := nofun
    sealedCursor := fun _ => by rw [heom, headerSize, footerSize]; omega
    decodingCursor := nofun }

theorem validated_blockInv {s : State} (hs : s.BlockInv) (hmin : 3 ≤ (s.buf 7).toNat)
    (hfits : 5 + (s.buf 7).toNat + 3 ≤ s.cap.bytes) : (validated s).BlockInv := by
  have hfstart := validated_fstart s
  have heom : (validated s).eom.toNat = 8 := rfl
  exact {
    memWf := hs.memWf
    memWithin := hs.memWithin
    eomBound := Nat.le_trans (by decide : 8 ≤ 11) s.cap.least
    fstartBound := .inr (by rw [hfstart]; exact ⟨by rw [recordsStart]; omega, hfits⟩)
    idleCursor := nofun
    encodingCursor := nofun
    sealedCursor := nofun
    decodingCursor := fun _ => by rw [hfstart, heom, recordsStart]; omega }

/-- A record passed lies before FSTART, so the cursor behind it has a 16-bit value. -/
theorem passed_eom {s : State} (hfits : s.eom.toNat + (s.buf s.eom.toNat).toNat ≤ s.fstart.toNat) :
    (passed s).eom.toNat = s.eom.toNat + (s.buf s.eom.toNat).toNat :=
  Nat.mod_eq_of_lt (Nat.lt_of_le_of_lt hfits s.fstart.isLt)

theorem passed_blockInv {s : State} (hs : s.BlockInv) (hphase : s.phase = .decoding)
    (hfits : s.eom.toNat + (s.buf s.eom.toNat).toNat ≤ s.fstart.toNat) : (passed s).BlockInv := by
  obtain ⟨hmin, hmax, hcap⟩ := decoding_bounds hs hphase
  have heom := passed_eom hfits
  have hp : (passed s).phase = .decoding := hphase
  exact { hs with
    eomBound := by rw [heom]; exact Nat.le_trans hfits (Nat.le_trans (Nat.le_add_right _ 3) hcap)
    idleCursor := by simp [hp]
    encodingCursor := by simp [hp]
    sealedCursor := by simp [hp]
    decodingCursor := fun _ => by rw [heom]; exact ⟨by rw [recordsStart]; omega, hfits⟩ }

theorem exec_keeps_blockInv {i : Instr} {s t : State} (hs : s.BlockInv) (h : exec i s = .next t) : t.BlockInv := by
  have hleast := s.cap.least
  obtain ⟨st, hfails, rfl⟩ | hok := exec_cases h
  · exact failed_blockInv hs hfails
  · cases hok with
    | start mfr prod pip sensor =>
      exact {
        memWf := wf_writeRange _ _ hs.memWf
        memWithin := within_writeRange _ _ _ (by rw [headerBytes_length]; exact Nat.le_trans (by decide) hleast)
          hs.memWithin
        eomBound := Nat.le_trans (by decide : 8 ≤ 11) hleast
        fstartBound := hs.fstartBound
        idleCursor := nofun
        encodingCursor := fun _ => Nat.le_refl 8
        sealedCursor := nofun
        decodingCursor := nofun }
    | append hphase _ hfits => exact appended_blockInv _ hs hphase hfits
    | sealMessage hphase hfits _ => exact sealed_blockInv hs hphase hfits
    | validate hmin hfits _ _ => exact validated_blockInv hs hmin hfits
    | next hphase _ hfits => exact passed_blockInv hs hphase hfits
    | reset =>
      exact { hs with
        eomBound := Nat.le_trans (by decide : 5 ≤ 11) hleast
        idleCursor := fun _ => rfl
        encodingCursor := nofun
        sealedCursor := nofun
        decodingCursor := nofun }
    | bwr data hfits =>
      exact { hs with
        memWf := wf_write _ _ hs.memWf
        memWithin := within_write _ _ hfits hs.memWithin }
    | crc | brd => exact { hs with }

/-! ### From a state that has the invariant every command answers -/

theorem ite_next {c : Prop} [Decidable c] {a b : Result} (ha : ∃ t, a = .next t) (hb : ∃ t, b = .next t) :
    ∃ t, (if c then a else b) = .next t := by
  split
  · exact ha
  · exact hb

theorem exec_total (i : Instr) {s : State} (hs : s.BlockInv) : ∃ t, exec i s = .next t := by
  cases i with
  | start mfr prod pip sensor => exact ⟨_, execStart_eq mfr prod pip sensor s⟩
  | append len body => exact execAppend_total len body s
  | sealMessage =>
    by_cases hphase : s.phase = .encoding
    · by_cases hfits : s.eom.toNat + 3 ≤ s.cap.bytes
      · exact ⟨_, execSeal_ok hphase hfits (Nat.le_trans (by decide) (hs.encodingCursor hphase))⟩
      · exact ⟨_, exec_seal_past_end hphase (Nat.lt_of_not_le hfits)⟩
    · exact ⟨_, exec_seal_outside_encoding hphase⟩
  | validate =>
    rw [exec, execValidate_eq]
    exact ite_next ⟨_, rfl⟩ (ite_next ⟨_, rfl⟩ (ite_next ⟨_, rfl⟩ ⟨_, rfl⟩))
  | next =>
    by_cases hphase : s.phase = .decoding
    · obtain ⟨-, hmax, hcap⟩ := decoding_bounds hs hphase
      rw [exec, execNext_eq (by omega)]
      exact ite_next ⟨_, rfl⟩ (ite_next ⟨_, rfl⟩ (ite_next ⟨_, rfl⟩ ⟨_, rfl⟩))
    · exact ⟨_, exec_next_outside_decoding hphase⟩
  | reset => exact ⟨_, rfl⟩
  | crc lo hi =>
    rw [exec, execCrc_eq]
    exact ite_next ⟨_, rfl⟩ ⟨_, rfl⟩
  | bwr addr data =>
    rw [exec, execBwr_eq]
    exact ite_next ⟨_, rfl⟩ ⟨_, rfl⟩
  | brd addr =>
    rw [exec, execBrd_eq]
    exact ite_next ⟨_, rfl⟩ ⟨_, rfl⟩

end Sys2Proof.Machine
end

section
/-! The statements about steps and runs (30_encoding.md sections 1, 4 and 5; 10_state.md sections 4 and 8). -/

namespace Sys2Proof.Machine

open Sys2Proof.Claims

/-! ### One entry of the stream -/

/-- What one complete entry of a stream does: the command's meaning, or the answer to a reserved opcode. -/
def execItem : StreamItem → State → Result
  | .command i, s => exec i s
  | .reserved _, s => execReserved s

theorem execItem_answers {item : StreamItem} {s t : State} (h : execItem item s = .next t) :
    ∃ r : Response, Answers s t r ∧ (r.status ≠ .ok → r.v0 = 0 ∧ r.v1 = 0) := by
  cases item with
  | command i =>
    obtain ⟨r, hanswers, _, _, _, hzero⟩ := exec_answers h
    exact ⟨r, hanswers, hzero⟩
  | reserved op =>
    cases h
    exact ⟨⟨.illegalCommand, 0, 0⟩, ⟨rfl, rfl, rfl, rfl⟩, fun _ => ⟨rfl, rfl⟩⟩

theorem execItem_keeps_blockInv {item : StreamItem} {s t : State} (hs : s.BlockInv) (h : execItem item s = .next t) :
    t.BlockInv := by
  cases item with
  | command i => exact exec_keeps_blockInv hs h
  | reserved op =>
    cases h
    exact { hs with }

theorem execItem_total (item : StreamItem) {s : State} (hs : s.BlockInv) : ∃ t, execItem item s = .next t := by
  cases item with
  | command i => exact exec_total i hs
  | reserved op => exact ⟨_, rfl⟩

theorem commandLength_item {item : StreamItem} (hw : item.wf = true) (rest : List Byte) :
    commandLength (item.encode ++ rest) = some item.encode.length := by
  cases item with
  | command i => exact (commandLength_encode hw rest).trans (congrArg some (encode_length hw).symm)
  | reserved op => exact commandLength_reserved (Option.isNone_iff_eq_none.1 hw) rest

/-! ### One step -/

/-- At a complete entry a step does what the entry does, and moves CP past its bytes. -/
theorem step_item {item : StreamItem} {s : State} {rest : List Byte} (hw : item.wf = true)
    (h : s.pending = item.encode ++ rest) : step s = advance item.encode.length (execItem item s) := by
  cases item with
  | command i =>
    have hdecode : decode s.pending = .command i := h ▸ decode_encode hw rest
    have hlength : (StreamItem.command i).encode.length = i.length := encode_length hw
    rw [step, hdecode, hlength]
    rfl
  | reserved op =>
    have hdecode : decode s.pending = .reserved op := h ▸ decode_reserved (Option.isNone_iff_eq_none.1 hw) rest
    rw [step, hdecode]
    rfl

theorem step_incomplete {s : State} (h : decode s.pending = .incomplete) : step s = .fault .runIncomplete := by
  rw [step, h]

theorem step_finished {s : State} (h : s.pending = []) : step s = .fault .runComplete := by
  rw [step, h]
  rfl

/-- A step that goes on ran a complete entry at CP. -/
theorem step_next_item {s t : State} (h : step s = .next t) : ∃ (item : StreamItem) (rest : List Byte) (u : State),
    item.wf = true ∧ s.pending = item.encode ++ rest ∧ execItem item s = .next u ∧
    t = { u with cp := u.cp + item.encode.length } := by
  obtain (hnil | hinc) | ⟨item, rest, hw, hpending⟩ := noEntry_or_item s.pending
  · rw [step_finished hnil] at h
    cases h
  · rw [step_incomplete hinc] at h
    cases h
  · rw [step_item hw hpending] at h
    obtain ⟨u, hu, rfl⟩ := advance_next h
    exact ⟨item, rest, u, hw, hpending, hu, rfl⟩

/-- An entry at CP ends within the stream. -/
theorem cp_add_le {s : State} {item : StreamItem} {rest : List Byte} (h : s.pending = item.encode ++ rest) :
    s.cp + item.encode.length ≤ s.stream.length := by
  have hpos := item_encode_length_pos item
  have hlength := congrArg List.length h
  rw [State.pending, List.length_drop, List.length_append] at hlength
  omega

/-- Settles O10: the response is that of the entry at CP. -/
theorem everyCommandEmitsOneResponse : Obligations.EveryCommandEmitsOneResponse := by
  intro s t h
  obtain ⟨item, rest, u, -, -, hu, rfl⟩ := step_next_item h
  obtain ⟨r, hanswers, hzero⟩ := execItem_answers hu
  exact ⟨r, hanswers.1, hzero⟩

/-- Settles O14: CP moves past the bytes of the entry at CP, whose number is the length rule's. -/
theorem commandPointerOnlyAdvances : Obligations.CommandPointerOnlyAdvances := by
  intro s t h
  obtain ⟨item, rest, u, hw, hpending, hu, rfl⟩ := step_next_item h
  obtain ⟨r, ⟨-, -, hstream, hcp⟩, -⟩ := execItem_answers hu
  refine ⟨hstream, ⟨item.encode.length, ?_, item_encode_length_pos item, congrArg (· + _) hcp⟩, ?_⟩
  · rw [← State.pending, hpending, commandLength_item hw]
  · simpa [hstream, hcp] using cp_add_le hpending

/-- Settles O12: the decoded command's arm of the step. -/
theorem stepRunsDecodedCommand : Obligations.StepRunsDecodedCommand := by
  intro s i h
  have hdecode : decode s.pending = .command i := h
  rw [step, hdecode]
  cases hexec : exec i s <;> simp [advance, hexec]

/-- Settles O26: the block's part is kept by the entry, and CP and the responses grow by its bytes and its one
response. -/
theorem stepKeepsInvariant : Obligations.StepKeepsInvariant := by
  intro s t hs h
  obtain ⟨item, rest, u, hw, hpending, hu, rfl⟩ := step_next_item h
  obtain ⟨r, ⟨hout, hcap, hstream, hcp⟩, -⟩ := execItem_answers hu
  have hbound := cp_add_le hpending
  have hpos := item_encode_length_pos item
  have hold := hs.outBound
  refine ⟨{ execItem_keeps_blockInv hs.toBlockInv hu with cpBound := ?_, outBound := ?_ }, hcap⟩
  · simpa [hstream, hcp] using hbound
  · simp only [hout, hcp, List.length_append, List.length_singleton]
    omega

/-- Settles O30: every command answers, so that a step stops only where no complete entry is left. -/
theorem noCommandLeavesBuffer : Obligations.NoCommandLeavesBuffer := by
  refine ⟨fun i s hs => exec_total i hs, fun s hs => ?_⟩
  obtain (hnil | hinc) | ⟨item, rest, hw, hpending⟩ := noEntry_or_item s.pending
  · exact .inr ⟨_, step_finished hnil, rfl⟩
  · exact .inr ⟨_, step_incomplete hinc, rfl⟩
  · obtain ⟨u, hu⟩ := execItem_total item hs.toBlockInv
    exact .inl ⟨_, by rw [step_item hw hpending, hu]; rfl⟩

/-- Settles O13: the two ends of a run, and no other where every command answers. -/
theorem runStopsCompleteOrIncomplete : Obligations.RunStopsCompleteOrIncomplete := by
  refine ⟨fun s h => step_finished (List.drop_eq_nil_of_le h), fun s => step_incomplete, fun s hs r h => ?_⟩
  have hcp := hs.cpBound
  obtain (hnil | hinc) | ⟨item, rest, hw, hpending⟩ := noEntry_or_item s.pending
  · rw [step_finished hnil] at h
    cases h
    have := List.drop_eq_nil_iff.1 hnil
    exact .inl ⟨rfl, by omega⟩
  · rw [step_incomplete hinc] at h
    cases h
    refine .inr ⟨rfl, Nat.lt_of_not_le fun hle => ?_, hinc⟩
    rw [State.pending, List.drop_eq_nil_of_le hle] at hinc
    cases hinc
  · obtain ⟨u, hu⟩ := execItem_total item hs.toBlockInv
    rw [step_item hw hpending, hu] at h
    cases h

/-! ### A whole run -/

/-- Past an entry the rest of the stream is pending. -/
theorem pending_past_item {s u : State} {item : StreamItem} {rest : List Byte} (h : s.pending = item.encode ++ rest)
    (hstream : u.stream = s.stream) (hcp : u.cp = s.cp) :
    { u with cp := u.cp + item.encode.length }.pending = rest :=
  calc u.stream.drop (u.cp + item.encode.length) = s.pending.drop item.encode.length := by
        rw [hstream, hcp, State.pending, List.drop_drop]
    _ = rest := by rw [h, List.drop_left]

/-- At a complete entry a step goes on, to the rest of the stream. -/
theorem step_of_inv {item : StreamItem} {s : State} {rest : List Byte} (hs : s.Inv) (hw : item.wf = true)
    (h : s.pending = item.encode ++ rest) : ∃ t, step s = .next t ∧ t.Inv ∧ t.pending = rest ∧ t.stream = s.stream ∧
      t.out.length = s.out.length + 1 := by
  obtain ⟨u, hu⟩ := execItem_total item hs.toBlockInv
  have hstep : step s = .next { u with cp := u.cp + item.encode.length } := by
    rw [step_item hw h, hu]
    rfl
  obtain ⟨r, ⟨hout, hcap, hstream, hcp⟩, -⟩ := execItem_answers hu
  exact ⟨_, hstep, (stepKeepsInvariant s _ hs hstep).1, pending_past_item h hstream hcp, hstream, by simp [hout]⟩

/-- A run takes one step for each complete entry of what is pending, and stops before the tail. -/
theorem runFor_items {items : List StreamItem} {tail : List Byte} (hitems : ∀ item ∈ items, item.wf = true)
    (htail : NoEntry tail) {s : State} (hs : s.Inv) (h : s.pending = encodeStream items ++ tail) {fuel : Nat}
    (hfuel : items.length < fuel) : ∃ t r, runFor fuel s = (t, some r) ∧ t.Inv ∧ t.pending = tail ∧
      t.stream = s.stream ∧ t.out.length = s.out.length + items.length ∧ step t = .fault r := by
  obtain ⟨fuel, rfl⟩ : ∃ k, fuel = k + 1 := ⟨fuel - 1, by omega⟩
  induction items generalizing s fuel with
  | nil =>
    obtain ⟨r, hr⟩ : ∃ r, step s = .fault r :=
      htail.elim (fun hnil => ⟨_, step_finished (h.trans hnil)⟩) fun hinc => ⟨_, step_incomplete (h ▸ hinc)⟩
    exact ⟨s, r, by rw [runFor, hr], hs, h, rfl, rfl, hr⟩
  | cons item items ih =>
    obtain ⟨hw, hitems⟩ := List.forall_mem_cons.1 hitems
    rw [encodeStream_cons, List.append_assoc] at h
    obtain ⟨u, hstep, hu, hpending, hstream, hout⟩ := step_of_inv hs hw h
    obtain ⟨fuel, rfl⟩ : ∃ k, fuel = k + 1 := ⟨fuel - 1, by simp at hfuel; omega⟩
    obtain ⟨t, r, hrun, ht, htpending, htstream, htout, hstop⟩ :=
      ih hitems hu hpending (fuel := fuel) (by simp at hfuel; omega)
    refine ⟨t, r, ?_, ht, htpending, htstream.trans hstream, ?_, hstop⟩
    · rw [runFor, hstep]
      exact hrun
    · rw [htout, hout, List.length_cons]
      omega

theorem startRun_inv {s : State} (hs : s.BlockInv) (bs : List Byte) : (s.startRun bs).Inv :=
  { hs with cpBound := Nat.zero_le _, outBound := Nat.le_refl 0 }

theorem length_le_encodeStream (items : List StreamItem) : items.length ≤ (encodeStream items).length := by
  induction items with
  | nil => exact Nat.le_refl 0
  | cons item items ih =>
    have := item_encode_length_pos item
    rw [encodeStream_cons, List.length_append, List.length_cons]
    omega

/-- Settles O15: the run passes the complete entries of the stream's split and stops before its tail. -/
theorem everyRunEnds : Obligations.EveryRunEnds := by
  intro s bs hs
  obtain ⟨items, tail, rfl, hitems, htail⟩ := exists_split bs
  have hlength := length_le_encodeStream items
  obtain ⟨t, r, hrun, ht, -, hstream, hout, hstop⟩ := runFor_items hitems htail (startRun_inv hs _)
    (h := rfl) (fuel := (encodeStream items ++ tail).length + 1) (by rw [List.length_append]; omega)
  have hends := runStopsCompleteOrIncomplete.2.2 t ht r hstop
  rw [show t.stream = encodeStream items ++ tail from hstream] at hends
  rw [splitStream_eq hitems htail]
  exact ⟨t, r, hrun, ht.toBlockInv, hends, by simpa using hout⟩

end Sys2Proof.Machine
end

section
/-! The statements of 40_crc.md: the checksum takes the bits one by one, is linear, and tells any two bytes apart. -/

namespace Sys2Proof.Machine

open Sys2Proof.Claims

/-! ### One round -/

theorem crcRound_eq (r : Word16) : crcRound r = r <<< 1 ^^^ if r.getLsbD 15 then crcPoly else 0#16 := by
  rw [crcRound]
  split
  · rfl
  · rw [BitVec.xor_zero]

/-- A round is linear: bit 15 selects the polynomial, and the shift moves every bit. -/
theorem crcRound_xor (a b : Word16) : crcRound (a ^^^ b) = crcRound a ^^^ crcRound b := by
  have hpoly : (if (a ^^^ b).getLsbD 15 then crcPoly else 0#16) =
      (if a.getLsbD 15 then crcPoly else 0#16) ^^^ (if b.getLsbD 15 then crcPoly else 0#16) := by
    rw [BitVec.getLsbD_xor]
    cases a.getLsbD 15 <;> cases b.getLsbD 15 <;> decide
  rw [crcRound_eq, crcRound_eq, crcRound_eq, hpoly, BitVec.shiftLeft_xor_distrib]
  ac_rfl

theorem crcRounds_xor (n : Nat) (a b : Word16) : crcRounds n (a ^^^ b) = crcRounds n a ^^^ crcRounds n b := by
  induction n generalizing a b with
  | zero => rfl
  | succ n ih => rw [crcRounds, crcRound_xor, ih, crcRounds, crcRounds]

theorem crcByte_xor (r r' : Word16) (b b' : Byte) : crcByte (r ^^^ r') (b ^^^ b') = crcByte r b ^^^ crcByte r' b' := by
  rw [crcByte, BitVec.setWidth_xor, BitVec.shiftLeft_xor_distrib, crcByte, crcByte, ← crcRounds_xor]
  congr 1
  ac_rfl

/-! ### Linearity and leading zeros -/

theorem crc16_eq_foldl (seq : List Byte) : crc16 seq = seq.foldl crcByte 0#16 := BitVec.xor_zero

theorem foldl_crcByte_xor {a b : List Byte} (h : a.length = b.length) (r r' : Word16) :
    (List.zipWith (· ^^^ ·) a b).foldl crcByte (r ^^^ r') = a.foldl crcByte r ^^^ b.foldl crcByte r' := by
  induction a generalizing b r r' with
  | nil =>
    obtain rfl := List.eq_nil_of_length_eq_zero h.symm
    rfl
  | cons x a ih =>
    cases b with
    | nil => cases h
    | cons y b =>
      rw [List.zipWith_cons_cons, List.foldl_cons, crcByte_xor, ih (Nat.succ.inj h), List.foldl_cons, List.foldl_cons]

/-- Settles O43: by induction on the sequences, from the register 0 = 0 ^ 0. -/
theorem checksumIsLinear : Obligations.ChecksumIsLinear := by
  intro a b h
  rw [crc16_eq_foldl, crc16_eq_foldl, crc16_eq_foldl, ← foldl_crcByte_xor h, BitVec.xor_self]

theorem crcByte_zero : crcByte 0#16 0x00 = 0#16 := by decide

/-- Settles O42: a zero byte leaves the register 0 as it is. -/
theorem checksumIgnoresLeadingZeros : Obligations.ChecksumIgnoresLeadingZeros := by
  refine ⟨crc16_nil, fun k seq => ?_⟩
  rw [crc16_eq_foldl, crc16_eq_foldl]
  induction k with
  | zero => rfl
  | succ k ih => rw [List.replicate_succ, List.cons_append, List.foldl_cons, crcByte_zero, ih]

/-! ### Bit by bit -/

/-- A round on a register into which the word `w` has been added takes bit 15 of `w` and leaves its others added. -/
theorem crcRound_xor_eq_crcBit (r w : Word16) : crcRound (r ^^^ w) = crcBit r (w.getLsbD 15) ^^^ w <<< 1 := by
  rw [crcRound, crcBit, BitVec.getLsbD_xor, BitVec.shiftLeft_xor_distrib]
  split
  · rw [crcPoly]
    ac_rfl
  · rfl

/-- `n` rounds take the `n` highest bits of the word that was added, the highest first. -/
theorem crcRounds_xor_eq_foldl (n : Nat) (r w : Word16) : crcRounds n (r ^^^ w) =
    ((List.range n).map fun k => (w <<< k).getLsbD 15).foldl crcBit r ^^^ w <<< n := by
  induction n generalizing r w with
  | zero => simp [crcRounds]
  | succ n ih =>
    rw [crcRounds, crcRound_xor_eq_crcBit, ih, List.range_succ_eq_map, List.map_cons, List.map_map, List.foldl_cons,
      BitVec.shiftLeft_zero, ← BitVec.shiftLeft_add, Nat.add_comm 1]
    congr 2
    refine List.map_congr_left fun k _ => ?_
    rw [Function.comp_apply, ← BitVec.shiftLeft_add, Nat.add_comm 1]

theorem crcByte_eq_foldl_crcBit (r : Word16) (b : Byte) : crcByte r b = (bitsMsbFirst b).foldl crcBit r := by
  have hbits : ((List.range 8).map fun k => (b.setWidth 16 <<< 8 <<< k : Word16).getLsbD 15) = bitsMsbFirst b := by
    simp [List.range_succ, bitsMsbFirst]
  have hzero : (b.setWidth 16 <<< 8 <<< 8 : Word16) = 0#16 := by
    rw [← BitVec.shiftLeft_add]
    exact BitVec.shiftLeft_eq_zero (Nat.le_refl 16)
  rw [crcByte, crcRounds_xor_eq_foldl, hbits, hzero, BitVec.xor_zero]

/-- Settles O41: a byte's 8 rounds are its 8 bits. -/
theorem checksumTakesBitsMostSignificantFirst : Obligations.ChecksumTakesBitsMostSignificantFirst := by
  intro seq
  rw [crc16_eq_foldl, List.foldl_flatMap]
  congr 1
  funext r b
  exact crcByte_eq_foldl_crcBit r b

/-! ### Two bytes are told apart -/

/-- A round loses nothing: the polynomial has bit 0 set, where the shift brings a 0 in. -/
theorem crcRound_eq_zero {x : Word16} (h : crcRound x = 0#16) : x = 0#16 := by
  rw [crcRound] at h
  split at h
  · have hbit := congrArg (BitVec.getLsbD · 0) h
    rw [BitVec.getLsbD_xor] at hbit
    simp [crcPoly] at hbit
  · rename_i htop
    refine BitVec.eq_of_getLsbD_eq fun k hk => ?_
    obtain rfl | hlow := Nat.eq_or_lt_of_le (Nat.le_of_lt_succ hk)
    · simpa using htop
    · have hbit : k + 1 < 16 → x.getLsbD k = false := by simpa using congrArg (BitVec.getLsbD · (k + 1)) h
      exact (hbit (Nat.succ_lt_succ hlow)).trans BitVec.getLsbD_zero.symm

theorem crcRounds_eq_zero {n : Nat} {x : Word16} (h : crcRounds n x = 0#16) : x = 0#16 := by
  induction n generalizing x with
  | zero => exact h
  | succ n ih => exact crcRound_eq_zero (ih h)

theorem eq_zero_of_high_eq_zero {b : Byte} (h : (b.setWidth 16 <<< 8 : Word16) = 0#16) : b = 0#8 := by
  revert b
  decide

/-- Registers that two bytes bring together differed by those bytes. -/
theorem crcByte_eq {r r' : Word16} {b b' : Byte} (h : crcByte r b = crcByte r' b') :
    r ^^^ r' = (b ^^^ b').setWidth 16 <<< 8 := by
  have hzero : crcByte (r ^^^ r') (b ^^^ b') = 0#16 := by rw [crcByte_xor, h, BitVec.xor_self]
  exact BitVec.xor_eq_zero_iff.1 (crcRounds_eq_zero hzero)

theorem crcByte_left_injective {r r' : Word16} {b : Byte} (h : crcByte r b = crcByte r' b) : r = r' := by
  have hxor := crcByte_eq h
  rw [BitVec.xor_self] at hxor
  exact BitVec.xor_eq_zero_iff.1 (hxor.trans (by decide))

theorem crcByte_right_injective {r : Word16} {b b' : Byte} (h : crcByte r b = crcByte r b') : b = b' := by
  have hxor := crcByte_eq h
  rw [BitVec.xor_self] at hxor
  exact BitVec.xor_eq_zero_iff.1 (eq_zero_of_high_eq_zero hxor.symm)

theorem foldl_crcByte_injective {r r' : Word16} (seq : List Byte) (h : seq.foldl crcByte r = seq.foldl crcByte r') :
    r = r' := by
  induction seq generalizing r r' with
  | nil => exact h
  | cons b seq ih => exact crcByte_left_injective (ih h)

theorem crc16_ne_of_byte_ne {b b' : Byte} (h : b ≠ b') (before after : List Byte) :
    crc16 (before ++ b :: after) ≠ crc16 (before ++ b' :: after) := by
  rw [crc16_append, crc16_append, List.foldl_cons, List.foldl_cons]
  exact fun heq => h (crcByte_right_injective (foldl_crcByte_injective after heq))

/-- Settles O44: each byte keeps registers apart, and two bytes bring one register apart. -/
theorem checksumDetectsChangeOfOneByte : Obligations.ChecksumDetectsChangeOfOneByte := by
  refine ⟨fun before after b b' h => crc16_ne_of_byte_ne h before after, fun before after b k hk => ?_⟩
  have hbit : BitVec.ofNat 8 (2 ^ k) ≠ 0#8 := by
    revert k
    decide
  exact crc16_ne_of_byte_ne (fun heq => hbit ((BitVec.xor_right_inj b).1 (heq.trans BitVec.xor_zero.symm))) before after

end Sys2Proof.Machine
end

section
/-! Two blocks that a host cannot tell apart (10_state.md section 3, 41_framer.md section 4, 70_reset_and_hazards.md
section 1): commands, steps and runs keep them alike. -/

namespace Sys2Proof.Machine

open Sys2Proof.Claims

/-! ### Results that are alike -/

/-- Two results of one kind: next states that `R` relates, or stops with one reason. -/
inductive Alike (R : State → State → Prop) : Result → Result → Prop where
  | next {t t' : State} (h : R t t') : Alike R (.next t) (.next t')
  | fault (r : Fault) : Alike R (.fault r) (.fault r)
  | refused (r : Refusal) : Alike R (.refused r) (.refused r)

theorem Alike.ite {R : State → State → Prop} {c : Prop} [Decidable c] {a a' b b' : Result} (ha : Alike R a a')
    (hb : Alike R b b') : Alike R (if c then a else b) (if c then a' else b') := by
  split
  · exact ha
  · exact hb

theorem Alike.of_next {R : State → State → Prop} {r r' : Result} {t : State} (h : Alike R r r') (ht : r = .next t) :
    ∃ t', r' = .next t' ∧ R t t' := by
  subst ht
  cases h with
  | next h => exact ⟨_, rfl, h⟩

theorem Alike.advance {R R' : State → State → Prop} {len : Nat} (hR : ∀ t t', R t t' →
    R' { t with cp := t.cp + len } { t' with cp := t'.cp + len }) {r r' : Result} (h : Alike R r r') :
    Alike R' (advance len r) (advance len r') := by
  cases h with
  | next h => exact .next (hR _ _ h)
  | fault r => exact .fault r
  | refused r => exact .refused r

/-- A relation that steps keep is kept by runs, which stop alike. -/
theorem runFor_alike {R : State → State → Prop} (hstep : ∀ s s', R s s' → Alike R (step s) (step s')) (n : Nat)
    {s s' : State} (h : R s s') : R (runFor n s).1 (runFor n s').1 ∧ (runFor n s').2 = (runFor n s).2 := by
  induction n generalizing s s' with
  | zero => exact ⟨h, rfl⟩
  | succ n ih =>
    have hs := hstep s s' h
    rw [runFor, runFor]
    generalize step s = r at hs
    generalize step s' = r' at hs
    cases hs with
    | next ht => exact ih ht
    | fault r => exact ⟨h, rfl⟩
    | refused r => exact ⟨h, rfl⟩

/-! ### Blocks with one view -/

/-- Blocks that differ at most in EOM, FSTART and CP: in EOM only where PHASE gives its value no reader (ENCODING and
DECODING do) and `e` is not asked for, in FSTART only outside DECODING and where `f` is not, in CP where `c` is not. -/
structure SameView (e f c : Prop) (s s' : State) : Prop where
  cap : s'.cap = s.cap
  mem : s'.mem = s.mem
  phase : s'.phase = s.phase
  stream : s'.stream = s.stream
  out : s'.out = s.out
  eom : e ∨ s.phase = .encoding ∨ s.phase = .decoding → s'.eom = s.eom
  fstart : f ∨ s.phase = .decoding → s'.fstart = s.fstart
  cp : c → s'.cp = s.cp

section
variable {e f c : Prop} {s s' : State} (h : SameView e f c s s')
include h

theorem SameView.emit (r : Response) : SameView e f c (s.emit r) (s'.emit r) :=
  { h with out := congrArg (· ++ [r]) h.out }

theorem SameView.respond (st : Status) (v0 v1 : Word16) : Alike (SameView e f c) (s.respond st v0 v1)
    (s'.respond st v0 v1) :=
  .next (h.emit ⟨st, v0, v1⟩)

theorem SameView.raise (st : Status) : Alike (SameView e f c) (s.raise st) (s'.raise st) := h.respond st 0 0

/-- A phase in which the registers have no reader. -/
theorem SameView.setPhase {p : Phase} (he : p ≠ .encoding) (hd : p ≠ .decoding) :
    SameView e f c (s.setPhase p) (s'.setPhase p) :=
  { h with
    phase := rfl
    eom := fun hkeep => h.eom (.inl (hkeep.resolve_right (not_or.2 ⟨he, hd⟩)))
    fstart := fun hkeep => h.fstart (.inl (hkeep.resolve_right hd)) }

/-- A phase entered with EOM written. -/
theorem SameView.setEom_setPhase (v : Nat) {p : Phase} (hd : p ≠ .decoding) :
    SameView e f c ((s.setEom v).setPhase p) ((s'.setEom v).setPhase p) :=
  { h with
    phase := rfl
    eom := fun _ => rfl
    fstart := fun hkeep => h.fstart (.inl (hkeep.resolve_right hd)) }

theorem SameView.setEom (v : Nat) : SameView e f c (s.setEom v) (s'.setEom v) := { h with eom := fun _ => rfl }

theorem SameView.loadRange (lo n : Nat) {k k' : List Byte → Result}
    (hk : ∀ bs, Alike (SameView e f c) (k bs) (k' bs)) :
    Alike (SameView e f c) (s.loadRange lo n k) (s'.loadRange lo n k') := by
  rw [State.loadRange, State.loadRange, State.bufRange, State.bufRange, h.cap, h.mem]
  exact (hk _).ite (.fault _)

theorem SameView.loadByte (a : Nat) {k k' : Byte → Result} (hk : ∀ b, Alike (SameView e f c) (k b) (k' b)) :
    Alike (SameView e f c) (s.loadByte a k) (s'.loadByte a k') := by
  rw [State.loadByte, State.loadByte, State.buf, State.buf, h.cap, h.mem]
  exact (hk _).ite (.fault _)

theorem SameView.writeRange (lo : Nat) (bs : List Byte) : SameView e f c { s with mem := s.mem.writeRange lo bs }
    { s' with mem := s'.mem.writeRange lo bs } :=
  { h with mem := congrArg (Memory.writeRange · lo bs) h.mem }

theorem SameView.storeRange (lo : Nat) (bs : List Byte) {k k' : State → Result}
    (hk : ∀ u u', SameView e f c u u' → Alike (SameView e f c) (k u) (k' u')) :
    Alike (SameView e f c) (s.storeRange lo bs k) (s'.storeRange lo bs k') := by
  rw [State.storeRange, State.storeRange, congrArg Capacity.bytes h.cap]
  exact Alike.ite (hk _ _ (h.writeRange lo bs)) (.fault _)

/-! ### Commands -/

theorem execAppend_alike (len : Byte) (body : List Byte) :
    Alike (SameView e f c) (execAppend len body s) (execAppend len body s') := by
  by_cases hphase : s.phase = .encoding
  · have heom : s'.eom = s.eom := h.eom (.inr (.inl hphase))
    rw [execAppend, execAppend, h.phase, h.cap, heom]
    refine (h.raise _).ite <| (h.raise _).ite <| ((h.setPhase (p := .aborted) (by decide) (by decide)).raise _).ite ?_
    exact h.storeRange _ _ fun u u' hu => (hu.setEom _).respond _ _ _
  · rw [execAppend, execAppend, if_pos hphase, if_pos (h.phase ▸ hphase)]
    exact h.raise _

theorem execSeal_alike : Alike (SameView e f c) (execSeal s) (execSeal s') := by
  by_cases hphase : s.phase = .encoding
  · have heom : s'.eom = s.eom := h.eom (.inr (.inl hphase))
    rw [execSeal, execSeal, State.sealLength, State.sealLength, h.phase, h.cap, heom]
    refine (h.raise _).ite <| ((h.setPhase (p := .aborted) (by decide) (by decide)).raise _).ite <|
      Alike.ite ?_ (.fault _)
    exact h.storeRange _ _ fun u u' hu => hu.loadRange _ _ fun covered => hu.storeRange _ _ fun w w' hw =>
      (hw.setEom_setPhase _ (p := .sealed) (by decide)).respond _ _ _
  · rw [execSeal, execSeal, if_pos hphase, if_pos (h.phase ▸ hphase)]
    exact h.raise _

theorem SameView.reject (st : Status) : Alike (SameView e f c) (s.reject st) (s'.reject st) :=
  (h.setPhase (p := .rejected) (by decide) (by decide)).raise st

theorem execValidate_alike : Alike (SameView e f c) (execValidate s) (execValidate s') := by
  refine h.loadByte _ fun hl => ?_
  dsimp only
  rw [h.cap]
  refine (h.reject _).ite <| h.loadRange _ _ fun covered => h.loadRange _ _ fun stored => (h.reject _).ite <|
    h.loadByte _ fun eod => (h.reject _).ite <| SameView.respond ?_ _ _ _
  exact { h with phase := rfl, eom := fun _ => rfl, fstart := fun _ => rfl }

theorem execNext_alike : Alike (SameView e f c) (execNext s) (execNext s') := by
  by_cases hphase : s.phase = .decoding
  · have heom : s'.eom = s.eom := h.eom (.inr (.inr hphase))
    have hfstart : s'.fstart = s.fstart := h.fstart (.inr hphase)
    rw [execNext, execNext, h.phase, heom, hfstart]
    refine (h.raise _).ite <| (h.raise _).ite <| h.loadByte _ fun len => (h.raise _).ite ?_
    exact (h.setEom _).respond _ _ _
  · rw [execNext, execNext, if_pos hphase, if_pos (h.phase ▸ hphase)]
    exact h.raise _

theorem exec_alike (i : Instr) : Alike (SameView e f c) (exec i s) (exec i s') := by
  cases i with
  | start mfr prod pip sensor =>
    exact h.storeRange _ _ fun u u' hu => (hu.setEom_setPhase _ (p := .encoding) (by decide)).respond _ _ _
  | append len body => exact execAppend_alike h len body
  | sealMessage => exact execSeal_alike h
  | validate => exact execValidate_alike h
  | next => exact execNext_alike h
  | reset => exact (h.setEom_setPhase _ (p := .idle) (by decide)).respond _ _ _
  | crc lo hi =>
    rw [exec, exec, execCrc, execCrc, h.cap]
    exact (h.raise _).ite <| h.loadRange _ _ fun bytes => h.respond _ _ _
  | bwr addr data =>
    rw [exec, exec, execBwr, execBwr, h.cap]
    exact (h.raise _).ite <| h.storeRange _ _ fun u u' hu => hu.respond _ _ _
  | brd addr =>
    rw [exec, exec, execBrd, execBrd, h.cap]
    exact (h.raise _).ite <| h.loadByte _ fun b => h.respond _ _ _

end

/-! ### Runs of blocks with one view -/

section
variable {e f : Prop} {s s' : State} (h : SameView e f True s s')
include h

theorem step_alike : Alike (SameView e f True) (step s) (step s') := by
  have hpending : s'.pending = s.pending := by rw [State.pending, State.pending, h.stream, h.cp trivial]
  have hadvance : ∀ (len : Nat) (t t' : State), SameView e f True t t' →
      SameView e f True { t with cp := t.cp + len } { t' with cp := t'.cp + len } :=
    fun len t t' ht => { ht with cp := fun _ => congrArg (· + len) (ht.cp trivial) }
  rw [step, step, hpending]
  cases decode s.pending with
  | command i => exact (exec_alike h i).advance (hadvance _)
  | reserved op => exact (h.raise .illegalCommand).advance (hadvance 1)
  | incomplete => exact .fault _
  | finished => exact .fault _

theorem runFor_sameView (n : Nat) :
    SameView e f True (runFor n s).1 (runFor n s').1 ∧ (runFor n s').2 = (runFor n s).2 :=
  runFor_alike (fun _ _ => step_alike) n h

end

/-- Settles O38: outside DECODING FSTART is not in the view, and EOM always is. -/
theorem fstartIsInvisibleOutsideDecoding : Obligations.FstartIsInvisibleOutsideDecoding := by
  intro n s v hphase
  have h : SameView True False True s { s with fstart := v } :=
    ⟨rfl, rfl, rfl, rfl, rfl, fun _ => rfl, fun hkeep => absurd (hkeep.resolve_left id) hphase, fun _ => rfl⟩
  obtain ⟨hview, hstop⟩ := runFor_sameView h n
  exact ⟨hstop, hview.out, hview.eom (.inl trivial), hview.phase, hview.mem, fun hdec => hview.fstart (.inr hdec)⟩

/-- Settles O39: outside ENCODING and DECODING EOM is not in the view, and FSTART always is. -/
theorem eomIsInvisibleOutsideEncodingAndDecoding : Obligations.EomIsInvisibleOutsideEncodingAndDecoding := by
  intro n s v henc hdec
  have h : SameView False True True s { s with eom := v } :=
    ⟨rfl, rfl, rfl, rfl, rfl, fun hkeep => absurd (hkeep.resolve_left id) (not_or.2 ⟨henc, hdec⟩), fun _ => rfl,
      fun _ => rfl⟩
  obtain ⟨hview, hstop⟩ := runFor_sameView h n
  exact ⟨hstop, hview.out, hview.fstart (.inl trivial), hview.phase, hview.mem, fun hkeep => hview.eom (.inr hkeep)⟩

/-! ### A stream and the commands it encodes -/

/-- Blocks with one view but for CP differ in CP alone. -/
theorem SameView.eq_withCp {s s' : State} (h : SameView True True False s s') : s' = { s with cp := s'.cp } := by
  obtain ⟨hcap, hmem, hphase, hstream, hout, heom, hfstart, -⟩ := h
  cases s
  cases s'
  simp_all

/-- The run of the commands' bytes, from a state that may differ in CP from the one the commands run in. -/
theorem runFor_commands {is : List Instr} (his : ∀ i ∈ is, i.WellFormed) {s s' t : State}
    (h : SameView True True False s s') (hexec : execAll is s = .next t) (hpending : s'.pending = is.flatMap encode)
    (hcp : s'.cp ≤ s'.stream.length) {fuel : Nat} (hfuel : is.length < fuel) :
    runFor fuel s' = ({ t with cp := s'.stream.length }, some .runComplete) := by
  obtain ⟨fuel, rfl⟩ : ∃ k, fuel = k + 1 := ⟨fuel - 1, by omega⟩
  induction is generalizing s s' fuel with
  | nil =>
    cases hexec
    have hend : s'.cp = s'.stream.length := Nat.le_antisymm hcp (List.drop_eq_nil_iff.1 hpending)
    rw [runFor, step_finished hpending, ← hend, ← h.eq_withCp]
  | cons i is ih =>
    obtain ⟨hw, his⟩ := List.forall_mem_cons.1 his
    obtain ⟨u, hu, ht⟩ := execAll_cons.1 hexec
    obtain ⟨u', hu', huu'⟩ := (exec_alike h i).of_next hu
    obtain ⟨r, ⟨-, -, hstream, hcp'⟩, -⟩ := exec_answers hu'
    have hstep : step s' = .next { u' with cp := u'.cp + (encode i).length } := by
      rw [step_item (item := .command i) hw hpending, execItem, hu']
      rfl
    have hbound := cp_add_le (item := .command i) hpending
    obtain ⟨fuel, rfl⟩ : ∃ k, fuel = k + 1 := ⟨fuel - 1, by simp at hfuel; omega⟩
    rw [runFor, hstep, ← hstream]
    refine ih his (s' := { u' with cp := u'.cp + (encode i).length }) { huu' with cp := nofun } ht
      (pending_past_item (item := .command i) hpending hstream hcp') ?_ (fuel := fuel) (by simp at hfuel; omega)
    simpa only [hstream, hcp', StreamItem.encode] using hbound

/-- Settles O16: by induction on the commands, whose states differ from the run's in CP alone. -/
theorem streamRunsItsCommandsInOrder : Obligations.StreamRunsItsCommandsInOrder := by
  intro s t is his h
  have hlength : is.length ≤ (is.flatMap encode).length := by
    have hencode : encodeStream (is.map .command) = is.flatMap encode := List.flatMap_map _ _ _
    simpa only [hencode, List.length_map] using length_le_encodeStream (is.map .command)
  exact runFor_commands his ⟨rfl, rfl, rfl, rfl, rfl, fun _ => rfl, fun _ => rfl, nofun⟩ h rfl (Nat.zero_le _)
    (Nat.lt_succ_of_le hlength)

end Sys2Proof.Machine
end

section
/-! The statement of 10_state.md section 7: several blocks. -/

namespace Sys2Proof.Machine

theorem stepBlock_eq_some_iff {blocks blocks' : List State} {k : Nat} : stepBlock blocks k = some blocks' ↔
    ∃ s t, blocks[k]? = some s ∧ step s = .next t ∧ blocks' = blocks.set k t := by
  rw [stepBlock]
  cases hk : blocks[k]? with
  | none => simp
  | some s => cases hs : step s <;> simp [hs, eq_comm]

/-- Steps of two blocks that may be taken in one order may be taken in the other. -/
theorem stepBlock_swap {blocks last : List State} {j k : Nat} (hjk : j ≠ k)
    (h : ((stepBlock blocks j).bind fun b => stepBlock b k) = some last) :
    ((stepBlock blocks k).bind fun b => stepBlock b j) = some last := by
  obtain ⟨mid, hj, hk⟩ := Option.bind_eq_some_iff.1 h
  obtain ⟨s, t, hs, hst, rfl⟩ := stepBlock_eq_some_iff.1 hj
  obtain ⟨u, v, hu, huv, rfl⟩ := stepBlock_eq_some_iff.1 hk
  rw [List.getElem?_set_ne hjk] at hu
  refine Option.bind_eq_some_iff.2 ⟨blocks.set k v, stepBlock_eq_some_iff.2 ⟨u, v, hu, huv, rfl⟩, ?_⟩
  refine stepBlock_eq_some_iff.2 ⟨s, t, ?_, hst, List.set_comm t v hjk⟩
  rw [List.getElem?_set_ne hjk.symm, hs]

/-- Settles O40: a step replaces its block, and replacements at two places commute. -/
theorem blocksAreIndependent : Obligations.BlocksAreIndependent := by
  refine ⟨fun blocks blocks' k h => ?_, fun blocks j k hjk => ?_⟩
  · obtain ⟨s, t, hs, hst, rfl⟩ := stepBlock_eq_some_iff.1 h
    refine ⟨List.length_set, fun j hj => List.getElem?_set_ne hj.symm, s, t, hs, hst, ?_⟩
    exact List.getElem?_set_self (List.getElem?_eq_some_iff.1 hs).1
  · exact Option.ext fun last => ⟨stepBlock_swap hjk, stepBlock_swap hjk.symm⟩

end Sys2Proof.Machine
end

section
/-! The statement of 41_framer.md section 6, idempotent reset: an encode sequence on two blocks whose BUFs differ. -/

namespace Sys2Proof.Machine

open Sys2Proof.Claims

/-! ### Two blocks with one frame in progress -/

/-- Blocks whose frames, the bytes below the cursor, are the same, and of which the first has answered `before` more. -/
structure SameFrame (before : List Response) (s s' : State) : Prop where
  cap : s'.cap = s.cap
  phase : s'.phase = s.phase
  eom : s'.eom = s.eom
  out : s.out = before ++ s'.out
  header : 8 ≤ s.eom.toNat
  below : ∀ a, a < s.eom.toNat → s'.buf a = s.buf a

/-- Both results are next states, which `R` relates. -/
def BothNext (R : State → State → Prop) (r r' : Result) : Prop := ∃ t t', r = .next t ∧ r' = .next t' ∧ R t t'

theorem execAll_bothNext {R : State → State → Prop} {is : List Instr}
    (hstep : ∀ i ∈ is, ∀ s s', R s s' → BothNext R (exec i s) (exec i s')) {s s' : State} (h : R s s') :
    BothNext R (execAll is s) (execAll is s') := by
  induction is generalizing s s' with
  | nil => exact ⟨s, s', rfl, rfl, h⟩
  | cons i is ih =>
    obtain ⟨hi, his⟩ := List.forall_mem_cons.1 hstep
    obtain ⟨u, u', hu, hu', huu'⟩ := hi s s' h
    obtain ⟨t, t', ht, ht', htt'⟩ := ih his huu'
    exact ⟨t, t', execAll_cons.2 ⟨u, hu, ht⟩, execAll_cons.2 ⟨u', hu', ht'⟩, htt'⟩

/-- The same bytes written at the end of what two contents share extend it. -/
theorem read_writeRange_congr {m m' : Memory} {lo a : Nat} {bs : List Byte} (h : ∀ b, b < lo → m'.read b = m.read b)
    (ha : a < lo + bs.length) : (m'.writeRange lo bs).read a = (m.writeRange lo bs).read a := by
  rw [read_writeRange, read_writeRange]
  split
  · rfl
  · exact h a (by omega)

theorem opened_sameFrame {before : List Response} {s s' : State} (hcap : s'.cap = s.cap)
    (hout : s.out = before ++ s'.out)
    (mfr prod : Byte) (pip : Word16) (sensor : Word24) :
    SameFrame before (opened mfr prod pip sensor s) (opened mfr prod pip sensor s') where
  cap := hcap
  phase := rfl
  eom := rfl
  out := by simp [opened, hout]
  header := Nat.le_refl 8
  below := fun a ha => read_writeRange_congr (lo := 0) nofun (by rwa [headerBytes_length, Nat.zero_add])

section
variable {before : List Response} {s s' : State} (h : SameFrame before s s')
include h

theorem SameFrame.answered (r : Response) : SameFrame before (answered s r) (answered s' r) :=
  { h with out := (congrArg (· ++ [r]) h.out).trans (List.append_assoc ..) }

theorem SameFrame.aborted (r : Response) :
    SameFrame before { Claims.answered s r with phase := .aborted } { Claims.answered s' r with phase := .aborted } :=
  { h.answered r with phase := rfl }

theorem SameFrame.appended {len : Byte} {body : List Byte} (hw : (Instr.append len body).WellFormed)
    (hlen : 2 ≤ len.toNat) (hfits : s.eom.toNat + len.toNat ≤ s.cap.bytes) :
    SameFrame before (appended len body s) (appended len body s') := by
  have heom : (Machine.appended len body s).eom.toNat = s.eom.toNat + len.toNat := toNat_ofNat_of_le_cap hfits
  exact {
    cap := h.cap
    phase := h.phase
    eom := by simp [Machine.appended, h.eom]
    out := by simp [Machine.appended, h.eom, h.out]
    header := by have := h.header; omega
    below := fun a ha => by
      rw [State.buf, State.buf, appended_mem hw hlen, appended_mem hw hlen, h.eom]
      exact read_writeRange_congr h.below (by rwa [record_length hw hlen, ← heom]) }

theorem SameFrame.lengthWritten {a : Nat} (ha : a < s.eom.toNat) :
    (lengthWritten s').buf a = (lengthWritten s).buf a := by
  by_cases h7 : a = 7
  · rw [h7, lengthWritten_buf_seven, lengthWritten_buf_seven, h.eom]
  · rw [lengthWritten_buf_ne h7, lengthWritten_buf_ne h7, h.below a ha]

theorem SameFrame.sealCrc : sealCrc s' = sealCrc s := by
  rw [Machine.sealCrc, Machine.sealCrc, h.eom]
  exact congrArg crc16 (readRange_congr fun k hk => h.lengthWritten (by omega))

theorem SameFrame.sealed (hfits : s.eom.toNat + 3 ≤ s.cap.bytes) : SameFrame before (sealed s) (sealed s') := by
  have heom : (Machine.sealed s).eom.toNat = s.eom.toNat + 3 := toNat_ofNat_of_le_cap hfits
  have heom' : (Machine.sealed s').eom = (Machine.sealed s).eom := by simp [Machine.sealed, h.eom]
  exact {
    cap := h.cap
    phase := rfl
    eom := heom'
    out := by rw [(sealed_answers s).1, (sealed_answers s').1, heom', h.sealCrc, h.out, List.append_assoc]
    header := by have := h.header; omega
    below := fun a ha => by
      rw [State.buf, State.buf, sealed_mem, sealed_mem, h.eom, h.sealCrc]
      exact read_writeRange_congr (fun b hb => h.lengthWritten hb) (by rwa [footerBytes_length, ← heom]) }

/-! ### The framer's commands on two such blocks -/

theorem SameFrame.exec_append {len : Byte} {body : List Byte} (hw : (Instr.append len body).WellFormed) :
    BothNext (SameFrame before) (exec (.append len body) s) (exec (.append len body) s') := by
  by_cases hphase : s.phase = .encoding
  · have hphase' := h.phase.trans hphase
    obtain hlen | hlen := Nat.lt_or_ge len.toNat 2
    · exact ⟨_, _, exec_append_short hphase hlen body, exec_append_short hphase' hlen body, h.answered _⟩
    obtain hfits | hpast := le_or_gt (s.eom.toNat + len.toNat) s.cap.bytes
    · exact ⟨_, _, execAppend_ok hphase hlen hfits, execAppend_ok hphase' hlen (by rwa [h.eom, h.cap]),
        h.appended hw hlen hfits⟩
    · exact ⟨_, _, exec_append_past_end hphase hlen hpast body,
        exec_append_past_end hphase' hlen (by rwa [h.eom, h.cap]) body, h.aborted _⟩
  · exact ⟨_, _, exec_append_outside_encoding hphase len body,
      exec_append_outside_encoding (h.phase ▸ hphase) len body, h.answered _⟩

theorem SameFrame.exec_seal : BothNext (SameFrame before) (exec .sealMessage s) (exec .sealMessage s') := by
  have hheader := h.header
  by_cases hphase : s.phase = .encoding
  · have hphase' := h.phase.trans hphase
    obtain hfits | hpast := le_or_gt (s.eom.toNat + 3) s.cap.bytes
    · exact ⟨_, _, execSeal_ok hphase hfits (by omega), execSeal_ok hphase' (by rwa [h.eom, h.cap])
        (by rw [h.eom]; omega), h.sealed hfits⟩
    · exact ⟨_, _, exec_seal_past_end hphase hpast, exec_seal_past_end hphase' (by rwa [h.eom, h.cap]), h.aborted _⟩
  · exact ⟨_, _, exec_seal_outside_encoding hphase, exec_seal_outside_encoding (h.phase ▸ hphase), h.answered _⟩

end

/-- Settles O48: START makes the frames the same, whatever BUF held, and APPENDs and SEAL keep them so. -/
theorem encodingAfterResetEqualsFreshEncoding : Obligations.EncodingAfterResetEqualsFreshEncoding := by
  intro s draw mfr prod pip sensor rs hrs
  have hopened : SameFrame (s.out ++ [⟨.ok, 5, 0⟩]) (opened mfr prod pip sensor (rewound s))
      (opened mfr prod pip sensor (State.powerOn s.cap draw)) :=
    opened_sameFrame (s := rewound s) (s' := State.powerOn s.cap draw) rfl (List.append_nil _).symm mfr prod pip sensor
  have hstep : ∀ i ∈ appends rs ++ [.sealMessage], ∀ u u', SameFrame (s.out ++ [⟨.ok, 5, 0⟩]) u u' →
      BothNext (SameFrame (s.out ++ [⟨.ok, 5, 0⟩])) (exec i u) (exec i u') := by
    intro i hi u u' h
    obtain hi | hi := List.mem_append.1 hi
    · obtain ⟨r, hr, rfl⟩ := List.mem_map.1 hi
      exact h.exec_append (hrs r hr)
    · obtain rfl := List.mem_singleton.1 hi
      exact h.exec_seal
  obtain ⟨t, t', ht, ht', h⟩ := execAll_bothNext hstep hopened
  refine ⟨t, t', t'.out, ?_, ?_, by simpa using h.out, rfl, h.phase.symm, h.eom.symm, fun a ha => (h.below a ha).symm⟩
  · exact execAll_cons.2 ⟨_, rfl, execAll_cons.2 ⟨_, execStart_eq mfr prod pip sensor _, ht⟩⟩
  · exact execAll_cons.2 ⟨_, execStart_eq mfr prod pip sensor _, ht'⟩

end Sys2Proof.Machine
end

section
/-! The statements of 41_framer.md section 6 and 42_iterator.md section 3: whole messages, sealed, validated
and walked. -/

namespace Sys2Proof.Machine

open Sys2Proof.Claims

/-! ### What BUF holds -/

theorem bufHolds_append {t : State} {lo : Nat} {as bs : List Byte} (ha : BufHolds t lo as)
    (hb : BufHolds t (lo + as.length) bs) : BufHolds t lo (as ++ bs) := fun k hk => by
  obtain hlt | hge := lt_or_ge k as.length
  · rw [List.getElem?_append_left hlt, ha k hlt]
  · rw [List.length_append] at hk
    have haddr : lo + as.length + (k - as.length) = lo + k := by omega
    rw [List.getElem?_append_right hge, hb _ (by omega), haddr]

theorem bufHolds_right {t : State} {lo : Nat} {as bs : List Byte} (h : BufHolds t lo (as ++ bs)) :
    BufHolds t (lo + as.length) bs := fun k hk => by
  have hbyte := h (as.length + k) (by rw [List.length_append]; omega)
  rwa [List.getElem?_append_right (Nat.le_add_right _ _), Nat.add_sub_cancel_left, ← Nat.add_assoc] at hbyte

/-- A byte sequence is held as long as its own bytes stay. -/
theorem bufHolds_of_buf_eq {s t : State} {lo : Nat} {bs : List Byte} (h : BufHolds s lo bs)
    (heq : ∀ a, lo ≤ a → a < lo + bs.length → t.buf a = s.buf a) : BufHolds t lo bs := fun k hk => by
  rw [heq _ (Nat.le_add_right _ _) (Nat.add_lt_add_left hk lo)]
  exact h k hk

/-- The first byte of a sequence that is held. -/
theorem buf_of_bufHolds_cons {t : State} {lo : Nat} {b : Byte} {bs : List Byte} (h : BufHolds t lo (b :: bs)) :
    t.buf lo = b := (Option.some.inj (h 0 (Nat.succ_pos _))).symm

theorem eq_ofNat_of_toNat_eq {w : Word16} {n : Nat} (h : w.toNat = n) : w = BitVec.ofNat 16 n := by
  rw [← h, BitVec.ofNat_toNat, BitVec.setWidth_eq]

/-! ### Records -/

theorem wellFormed_of_good {r : Record} (h : Record.Good r) : (Instr.append r.1 r.2).WellFormed := by
  obtain ⟨hmin, hlength⟩ := h
  rw [Record.bytes, List.length_cons] at hlength
  rw [wellFormed_append_iff]
  omega

theorem recordsBytes_cons (r : Record) (rs : List Record) :
    recordsBytes (r :: rs) = Record.bytes r ++ recordsBytes rs :=
  List.flatMap_cons

theorem recordsBytes_cons_length {r : Record} (h : Record.Good r) (rs : List Record) :
    (recordsBytes (r :: rs)).length = r.1.toNat + (recordsBytes rs).length := by
  rw [recordsBytes_cons, List.length_append, h.2]

/-! ### APPENDs -/

/-- What APPENDs of `rs` that all fit make of `s`: the records, one behind the other from the cursor on. -/
structure AppendsDone (rs : List Record) (s t : State) : Prop where
  holds : BufHolds t s.eom.toNat (recordsBytes rs)
  others : ∀ a, a < s.eom.toNat ∨ s.eom.toNat + (recordsBytes rs).length ≤ a → t.buf a = s.buf a
  eom : t.eom.toNat = s.eom.toNat + (recordsBytes rs).length
  phase : t.phase = .encoding
  fstart : t.fstart = s.fstart
  cap : t.cap = s.cap
  out : t.out = s.out ++ appendAnswers s.eom.toNat rs

theorem execAll_appends {rs : List Record} (hgood : ∀ r ∈ rs, Record.Good r) {s : State} (hphase : s.phase = .encoding)
    (hfits : s.eom.toNat + (recordsBytes rs).length ≤ s.cap.bytes) :
    ∃ t, execAll (appends rs) s = .next t ∧ AppendsDone rs s t := by
  induction rs generalizing s with
  | nil =>
    exact ⟨s, rfl, ⟨nofun, fun _ _ => rfl, rfl, hphase, rfl, rfl, (List.append_nil _).symm⟩⟩
  | cons r rs ih =>
    obtain ⟨hr, hgood⟩ := List.forall_mem_cons.1 hgood
    have hlength := recordsBytes_cons_length hr rs
    obtain ⟨-, -, -, -, happend⟩ := appendCopiesRecord s r.1 r.2 (wellFormed_of_good hr)
    obtain ⟨u, hu, hholds, hothers, heom, hup, hfstart, hout, hcap, -, -⟩ := happend hphase hr.1 (by omega)
    obtain ⟨t, ht, hdone⟩ := ih hgood hup (by rw [heom, hcap]; omega)
    have hrest := hdone.holds
    rw [heom] at hrest
    refine ⟨t, execAll_cons.2 ⟨u, hu, ht⟩, ⟨?_, fun a ha => ?_, ?_, hdone.phase, hdone.fstart.trans hfstart,
      hdone.cap.trans hcap, ?_⟩⟩
    · rw [recordsBytes_cons]
      refine bufHolds_append (bufHolds_of_buf_eq hholds fun a _ ha => hdone.others a (.inl ?_)) (hr.2 ▸ hrest)
      rw [heom, ← hr.2]
      exact ha
    · rw [hdone.others a (by omega), hothers a (by omega)]
    · rw [hdone.eom, heom]
      omega
    · rw [hdone.out, hout, heom, eq_ofNat_of_toNat_eq heom, List.append_assoc]
      rfl

/-! ### START, APPENDs, SEAL -/

theorem execAll_cap {is : List Instr} {s t : State} (h : execAll is s = .next t) : t.cap = s.cap := by
  refine execAll_keeps (P := fun u => u.cap = s.cap) (fun i _ u v hv hu => ?_) h rfl
  obtain ⟨r, ⟨-, hcap, -, -⟩, -⟩ := exec_answers hv
  exact hcap.trans hu

/-- Settles O45: the records lie between START's header and SEAL's footer, which leave them as APPEND wrote them. -/
theorem sealedFrameHoldsItsRecords : Obligations.SealedFrameHoldsItsRecords := by
  intro s mfr prod pip sensor rs hgood hfits
  obtain ⟨-, u, hu, hheader, husOthers, hueom, hup, hufstart, huout, hucap, -, -⟩ :=
    startOpensMessage s mfr prod pip sensor
  have hueom : u.eom.toNat = 8 := congrArg BitVec.toNat hueom
  obtain ⟨v, hv, hdone⟩ := execAll_appends hgood hup (by rw [hueom, hucap]; omega)
  obtain ⟨hholds, hothers, hveom, hvp, hvfstart, hvcap, hvout⟩ := hdone
  rw [hueom] at hholds hothers hveom hvout
  have hvfits : v.eom.toNat + 3 ≤ v.cap.bytes := by rw [hveom, hvcap, hucap]; exact hfits
  obtain ⟨t, c, ht, hlength, -, hc, hfooter, htOthers, hteom, htp, htfstart, htout, -, -, -⟩ :=
    (sealClosesFrame.2 v).2.2 hvp (by omega) hvfits
  have hcovered : v.eom.toNat - 5 = 3 + (recordsBytes rs).length := by omega
  rw [hcovered] at hlength hc
  rw [hveom] at hfooter htOthers hteom
  refine ⟨t, c, ?_, ?_, by rw [hlength, Nat.add_comm], ?_, hc, hfooter, fun a ha => ?_, hteom, htp, ?_, ?_⟩
  · exact execAll_append.2 ⟨v, execAll_cons.2 ⟨u, hu, hv⟩, execAll_cons.2 ⟨t, ht, rfl⟩⟩
  · exact bufHolds_of_buf_eq hholds fun a hlo hhi => htOthers a (by omega) (.inl hhi)
  · refine bufHolds_of_buf_eq (bufHolds_left (bs := [0x00]) hheader) fun a _ hhi => ?_
    have hhi : a < 7 := by simpa using hhi
    rw [htOthers a (by omega) (.inl (by omega)), hothers a (.inl (by omega))]
  · rw [htOthers a (by omega) (.inr ha), hothers a (.inr (by omega)), husOthers a (by omega)]
  · rw [htfstart, hvfstart, hufstart]
  · rw [htout, hvout, huout, List.append_assoc s.out]
    rfl

/-! ### VALIDATE -/

/-- A footer that BUF holds stores its crc. -/
theorem storedCrc_of_bufHolds {t : State} {f : Nat} {c : Word16}
    (h : BufHolds t f [0x00, c.extractLsb' 0 8, c.extractLsb' 8 8]) : storedCrc t f = c.toNat := by
  have hlow := buf_of_bufHolds_cons (bufHolds_right (as := [0x00]) h)
  have hhigh := buf_of_bufHolds_cons (bufHolds_right (as := [0x00, c.extractLsb' 0 8]) h)
  have hvalue := congrArg BitVec.toNat (ofNat_leValue_two c (leBytes_two c))
  rw [toNat_ofNat_leValue_two, ← hlow, ← hhigh] at hvalue
  exact hvalue

/-- A frame of `n` record bytes as SEAL leaves it is opened for iteration (R120). -/
theorem exec_validate_sealed {t : State} {n : Nat} {c : Word16} (hlength : (t.buf 7).toNat = n + 3)
    (hfits : 8 + n + 3 ≤ t.cap.bytes) (hc : c = crc16 (t.bufRange 5 (3 + n)))
    (hfooter : BufHolds t (8 + n) [0x00, c.extractLsb' 0 8, c.extractLsb' 8 8]) :
    exec .validate t = .next (validated t) := by
  have hf : 8 + n = 5 + (t.buf 7).toNat := by omega
  have hcrc : c = crc16 (t.bufRange 5 (t.buf 7).toNat) := by rw [hc, hlength, Nat.add_comm 3]
  rw [hf] at hfooter
  rw [exec_validate_fitting rfl (by omega) (by omega), storedCrc_of_bufHolds hfooter, hcrc,
    if_neg (not_not.2 rfl), if_neg (not_not.2 (buf_of_bufHolds_cons hfooter))]
  rfl

/-! ### NEXTs -/

theorem exec_next_passed {s : State} (hphase : s.phase = .decoding) (hcap : s.eom.toNat < s.cap.bytes)
    (hlen : 2 ≤ (s.buf s.eom.toNat).toNat) (hfits : s.eom.toNat + (s.buf s.eom.toNat).toNat ≤ s.fstart.toNat) :
    exec .next s = .next (passed s) := by
  have hne : s.eom ≠ s.fstart := fun heq => by rw [← heq] at hfits; omega
  rw [exec, execNext_eq hcap, if_neg (not_not.2 hphase), if_neg hne, if_neg (by omega)]
  rfl

/-- The state in which NEXTs have walked the records `rs` up to FSTART. -/
def walked (rs : List Record) (s : State) : State :=
  { s with eom := s.fstart, out := s.out ++ viewAnswers s.eom.toNat rs }

/-- NEXTs walk the records that lie between the cursor and FSTART, and answer their views. -/
theorem execAll_nexts {rs : List Record} (hgood : ∀ r ∈ rs, Record.Good r) {s : State} (hphase : s.phase = .decoding)
    (hholds : BufHolds s s.eom.toNat (recordsBytes rs)) (hend : s.fstart.toNat = s.eom.toNat + (recordsBytes rs).length)
    (hcap : s.fstart.toNat ≤ s.cap.bytes) :
    execAll (List.replicate rs.length .next) s = .next (walked rs s) := by
  induction rs generalizing s with
  | nil =>
    have heom : s.eom = s.fstart := BitVec.eq_of_toNat_eq hend.symm
    rw [walked, viewAnswers, List.append_nil]
    exact congrArg (fun w => Host.Outcome.next { s with eom := w }) heom
  | cons r rs ih =>
    obtain ⟨hr, hgood⟩ := List.forall_mem_cons.1 hgood
    have hlength := recordsBytes_cons_length hr rs
    have hmin := hr.1
    rw [recordsBytes_cons] at hholds
    have hbyte : s.buf s.eom.toNat = r.1 := buf_of_bufHolds_cons hholds
    have hfits : s.eom.toNat + (s.buf s.eom.toNat).toNat ≤ s.fstart.toNat := by rw [hbyte]; omega
    have heom : (passed s).eom.toNat = s.eom.toNat + r.1.toNat := hbyte ▸ passed_eom hfits
    have hwalk := ih hgood (s := passed s) hphase (by rw [heom, ← hr.2]; exact bufHolds_right hholds)
      (by rw [heom]; exact hend.trans (by omega)) hcap
    refine execAll_cons.2 ⟨_, exec_next_passed hphase (by omega) (by rwa [hbyte]) hfits, hwalk.trans ?_⟩
    rw [walked, heom]
    simp [walked, passed, viewAnswers, hbyte]

/-! ### The round trip -/

/-- The commands of a round trip: a message of the records `rs`, framed, validated and walked to its end. -/
def roundTrip (mfr prod : Byte) (pip : Word16) (sensor : Word24) (rs : List Record) : List Instr :=
  .start mfr prod pip sensor :: appends rs ++ [.sealMessage, .validate] ++ List.replicate (rs.length + 1) .next

/-- What a round trip of the records `rs` makes of `s`, with `c` the crc of the sealed frame. -/
structure RoundTripDone (mfr prod : Byte) (pip : Word16) (sensor : Word24) (rs : List Record) (c : Word16)
    (s t : State) : Prop where
  out : t.out = s.out ++ ⟨.ok, 8, 0⟩ :: appendAnswers 8 rs ++
    [⟨.ok, BitVec.ofNat 16 (8 + (recordsBytes rs).length + 3), c⟩,
      ⟨.ok, BitVec.ofNat 16 (8 + (recordsBytes rs).length), 0⟩] ++
    viewAnswers 8 rs ++ [⟨.iterationExhausted, 0, 0⟩]
  records : BufHolds t 8 (recordsBytes rs)
  header : BufHolds t 0 [mfr, prod, pip.extractLsb' 0 8, pip.extractLsb' 8 8,
    sensor.extractLsb' 0 8, sensor.extractLsb' 8 8, sensor.extractLsb' 16 8]
  length : (t.buf 7).toNat = (recordsBytes rs).length + 3
  crc : c = crc16 (t.bufRange 5 (3 + (recordsBytes rs).length))
  eom : t.eom = BitVec.ofNat 16 (8 + (recordsBytes rs).length)
  fstart : t.fstart = BitVec.ofNat 16 (8 + (recordsBytes rs).length)
  phase : t.phase = .decoding

theorem execAll_roundTrip (s : State) (mfr prod : Byte) (pip : Word16) (sensor : Word24) {rs : List Record}
    (hgood : ∀ r ∈ rs, Record.Good r) (hfits : 8 + (recordsBytes rs).length + 3 ≤ s.cap.bytes) :
    ∃ t c, execAll (roundTrip mfr prod pip sensor rs) s = .next t ∧
      RoundTripDone mfr prod pip sensor rs c s t := by
  obtain ⟨u, c, hu, hrecords, hlength, hheader, hc, hfooter, -, heom, -, -, hout⟩ :=
    sealedFrameHoldsItsRecords s mfr prod pip sensor rs hgood hfits
  have hucap : u.cap = s.cap := execAll_cap hu
  have hend : (validated u).fstart.toNat = 8 + (recordsBytes rs).length := by
    rw [validated_fstart, hlength]
    omega
  have hfstart : (validated u).fstart = BitVec.ofNat 16 (8 + (recordsBytes rs).length) := eq_ofNat_of_toNat_eq hend
  have hvalidate := exec_validate_sealed hlength (hucap ▸ hfits) hc hfooter
  have hwalk := execAll_nexts hgood (s := validated u) rfl hrecords hend
    (by rw [hend]; exact Nat.le_trans (Nat.le_add_right _ 3) (hucap ▸ hfits))
  have hsplit : roundTrip mfr prod pip sensor rs = .start mfr prod pip sensor :: appends rs ++ [.sealMessage] ++
      .validate :: (List.replicate rs.length .next ++ [.next]) := by
    simp [roundTrip, List.replicate_succ']
  refine ⟨answered (walked rs (validated u)) ⟨.iterationExhausted, 0, 0⟩, c, ?_,
    ⟨?_, hrecords, hheader, hlength, hc, hfstart, hfstart, rfl⟩⟩
  · rw [hsplit]
    exact execAll_append.2 ⟨u, hu, execAll_cons.2 ⟨_, hvalidate,
      execAll_append.2 ⟨_, hwalk, execAll_cons.2 ⟨_, exec_next_at_footer rfl rfl, rfl⟩⟩⟩⟩
  · have hout' : (validated u).out = u.out ++ [⟨.ok, (validated u).fstart, 0⟩] := rfl
    have heom8 : (validated u).eom.toNat = 8 := rfl
    simp [answered, walked, hout', hfstart, heom8, hout, eq_ofNat_of_toNat_eq heom]

/-- Settles O46: what the round trip answers, and the records it leaves in BUF. -/
theorem roundTripYieldsTheRecords : Obligations.RoundTripYieldsTheRecords := by
  intro s mfr prod pip sensor rs hgood hfits
  obtain ⟨t, c, ht, hdone⟩ := execAll_roundTrip s mfr prod pip sensor hgood hfits
  exact ⟨t, c, ht, hdone.out, hdone.records⟩

/-- Settles O47: the round trip of no records, whose crc covers the last two bytes of sensor and header_length. -/
theorem emptyMessageValidates : Obligations.EmptyMessageValidates := by
  rintro s mfr prod pip sensor _ rfl
  obtain ⟨t, c, ht, hdone⟩ := execAll_roundTrip s mfr prod pip sensor (rs := []) nofun s.cap.least
  have h5 : t.buf 5 = sensor.extractLsb' 8 8 := (Option.some.inj (hdone.header 5 (by simp))).symm
  have h6 : t.buf 6 = sensor.extractLsb' 16 8 := (Option.some.inj (hdone.header 6 (by simp))).symm
  have h7 : t.buf 7 = 0x03 := BitVec.eq_of_toNat_eq hdone.length
  have hcrc : c = crc16 [sensor.extractLsb' 8 8, sensor.extractLsb' 16 8, 0x03] := by
    rw [← h5, ← h6, ← h7]
    exact hdone.crc
  refine ⟨t, ht, ?_, hdone.eom, hdone.fstart, hdone.phase, hdone.length⟩
  rw [← hcrc, hdone.out]
  simp only [List.append_assoc]
  rfl

/-! ### A frame with one byte changed -/

theorem readRange_add (m : Memory) (lo k j : Nat) :
    m.readRange lo (k + j) = m.readRange lo k ++ m.readRange (lo + k) j := by
  induction k generalizing lo with
  | zero => simp [Memory.readRange]
  | succ k ih =>
    rw [Nat.succ_add, Memory.readRange, ih, Memory.readRange, List.cons_append, Nat.add_assoc lo 1 k, Nat.add_comm 1]

section
variable {s t : State} {a : Nat} (hother : ∀ b, b ≠ a → t.buf b = s.buf b)
include hother

/-- A range that leaves out the changed byte reads as before. -/
theorem bufRange_eq_of_other {lo n : Nat} (ha : a < lo ∨ lo + n ≤ a) : t.bufRange lo n = s.bufRange lo n :=
  readRange_congr fun k hk => hother _ (by omega)

/-- The checksum of a range tells that a byte in it has changed. -/
theorem crc16_bufRange_ne (hne : t.buf a ≠ s.buf a) {lo n : Nat} (hlo : lo ≤ a) (hhi : a < lo + n) :
    crc16 (t.bufRange lo n) ≠ crc16 (s.bufRange lo n) := by
  obtain ⟨k, rfl⟩ := Nat.exists_eq_add_of_le hlo
  obtain ⟨j, rfl⟩ : ∃ j, n = k + (j + 1) := ⟨n - k - 1, by omega⟩
  have hsplit : ∀ u : State, u.bufRange lo (k + (j + 1)) =
      u.bufRange lo k ++ u.buf (lo + k) :: u.bufRange (lo + k + 1) j := fun u => readRange_add u.mem lo k (j + 1)
  rw [hsplit, hsplit, bufRange_eq_of_other hother (.inr (Nat.le_refl _)),
    bufRange_eq_of_other hother (.inl (Nat.lt_succ_self _))]
  exact crc16_ne_of_byte_ne hne _ _

theorem storedCrc_eq_of_other {f : Nat} (h1 : f + 1 ≠ a) (h2 : f + 2 ≠ a) : storedCrc t f = storedCrc s f := by
  rw [storedCrc, hother _ h1, hother _ h2, storedCrc]

theorem storedCrc_ne (hne : t.buf a ≠ s.buf a) {f : Nat} (ha : a = f + 1 ∨ a = f + 2) :
    storedCrc t f ≠ storedCrc s f := by
  have hne : (t.buf a).toNat ≠ (s.buf a).toNat := fun h => hne (BitVec.eq_of_toNat_eq h)
  have h1 := (t.buf (f + 1)).isLt
  have h2 := (s.buf (f + 1)).isLt
  rw [storedCrc, storedCrc]
  obtain rfl | rfl := ha
  · rw [hother (f + 2) (by omega)]
    omega
  · rw [hother (f + 1) (by omega)]
    omega

end

/-- Settles O49: the frame that validates has the stored crc and a zero sentinel; the changed byte alters one of the
covered bytes, the stored crc and the sentinel, and leaves the others. -/
theorem validateDetectsChangedByte : Obligations.ValidateDetectsChangedByte := by
  rintro s t u _ a hu hphase rfl hcap hne hother
  obtain ⟨st, rfl⟩ | hok := exec_validate_cases hu
  · cases hphase
  cases hok with
  | validate hmin hfits hcrc heod =>
    have hfitting (h7 : a ≠ 7) := exec_validate_fitting (congrArg BitVec.toNat (hother 7 h7.symm)).symm hmin
      (hcap ▸ hfits)
    have hkept (ha : 5 + (s.buf 7).toNat ≤ a) :
        (crc16 (t.bufRange 5 (s.buf 7).toNat)).toNat = storedCrc s (5 + (s.buf 7).toNat) := by
      rw [bufRange_eq_of_other hother (.inr ha), hcrc]
    refine ⟨fun ha => ?_, ?_⟩
    · rw [hfitting (by omega)]
      refine if_pos ?_
      obtain hcovered | hstored : a < 5 + (s.buf 7).toNat ∨
          a = 5 + (s.buf 7).toNat + 1 ∨ a = 5 + (s.buf 7).toNat + 2 := by
        omega
      · rw [storedCrc_eq_of_other hother (by omega) (by omega), ← hcrc]
        exact fun heq => crc16_bufRange_ne hother hne (by omega) hcovered (BitVec.eq_of_toNat_eq heq)
      · rw [hkept (by omega)]
        exact (storedCrc_ne hother hne hstored).symm
    · rintro rfl
      have hcrcEq := (hkept (Nat.le_refl _)).trans (storedCrc_eq_of_other hother (by omega) (by omega)).symm
      rw [hfitting (by omega), if_neg (not_not.2 hcrcEq)]
      exact if_pos (heod ▸ hne)

end Sys2Proof.Machine
end

section
/-! The statement of 42_iterator.md section 3, iteration terminates. -/

namespace Sys2Proof.Machine

open Sys2Proof.Claims

/-- NEXT answers the error `r` in DECODING: the cursor is at FSTART, or the record at it does not fit. -/
def NextHalts (s : State) (r : Response) : Prop :=
  s.phase = .decoding ∧ (s.eom = s.fstart ∧ r = ⟨.iterationExhausted, 0, 0⟩ ∨
    s.eom ≠ s.fstart ∧ s.eom.toNat < s.cap.bytes ∧
      ((s.buf s.eom.toNat).toNat < 2 ∨ s.fstart.toNat < s.eom.toNat + (s.buf s.eom.toNat).toNat) ∧
      r = ⟨.malformedRecord, 0, 0⟩)

theorem NextHalts.exec_next {s : State} {r : Response} (h : NextHalts s r) : exec .next s = .next (answered s r) := by
  obtain ⟨hphase, ⟨heom, rfl⟩ | ⟨hne, hcap, hbad, rfl⟩⟩ := h
  · exact exec_next_at_footer hphase heom
  · exact (exec_next_before_footer hphase hne hcap rfl).trans (if_pos hbad)

theorem NextHalts.status {s : State} {r : Response} (h : NextHalts s r) :
    r.status = .iterationExhausted ∨ r.status = .malformedRecord := by
  obtain ⟨-, ⟨-, rfl⟩ | ⟨-, -, -, rfl⟩⟩ := h
  · exact .inl rfl
  · exact .inr rfl

/-- The error does not change what it was found in, so every further NEXT answers it again. -/
theorem NextHalts.execAll_nexts {s : State} {r : Response} (h : NextHalts s r) (n : Nat) :
    execAll (List.replicate n .next) s = .next { s with out := s.out ++ List.replicate n r } := by
  induction n generalizing s with
  | zero => simp
  | succ n ih =>
    refine execAll_cons.2 ⟨_, h.exec_next, (ih (s := answered s r) h).trans ?_⟩
    simp [answered, List.replicate_succ]

/-- In DECODING a NEXT halts, or passes a record of at least two bytes that ends at FSTART or before. -/
theorem next_halts_or_passes {s : State} (hs : s.BlockInv) (hphase : s.phase = .decoding) : (∃ r, NextHalts s r) ∨
    exec .next s = .next (passed s) ∧ 2 ≤ (s.buf s.eom.toNat).toNat ∧
      s.eom.toNat + (s.buf s.eom.toNat).toNat ≤ s.fstart.toNat := by
  obtain ⟨-, hmax, hcap⟩ := decoding_bounds hs hphase
  by_cases heom : s.eom = s.fstart
  · exact .inl ⟨_, hphase, .inl ⟨heom, rfl⟩⟩
  by_cases hbad : (s.buf s.eom.toNat).toNat < 2 ∨ s.fstart.toNat < s.eom.toNat + (s.buf s.eom.toNat).toNat
  · exact .inl ⟨_, hphase, .inr ⟨heom, by omega, hbad, rfl⟩⟩
  · exact .inr ⟨exec_next_passed hphase (by omega) (by omega) (by omega), by omega, by omega⟩

/-- Settles O50: by induction on the NEXTs; each OK passes at least two bytes, and the first error stays. -/
theorem iterationEnds : Obligations.IterationEnds := by
  intro s n hs hphase
  induction n generalizing s with
  | zero =>
    exact ⟨s, [], ⟨.iterationExhausted, 0, 0⟩, rfl, Nat.le_refl 0, by simp, nofun, .inl rfl, Nat.zero_le _⟩
  | succ n ih =>
    obtain ⟨r, hhalts⟩ | ⟨hnext, hlen, hfits⟩ := next_halts_or_passes hs hphase
    · exact ⟨_, [], r, hhalts.execAll_nexts (n + 1), Nat.zero_le _, by simp, nofun, hhalts.status, Nat.zero_le _⟩
    · obtain ⟨t, oks, last, ht, hcount, hout, hoks, hlast, hbound⟩ :=
        ih (passed s) (passed_blockInv hs hphase hfits) hphase
      have hfstart : (passed s).fstart = s.fstart := rfl
      rw [passed_eom hfits, hfstart] at hbound
      refine ⟨t, ⟨.ok, s.eom, (s.buf s.eom.toNat).setWidth 16⟩ :: oks, last, execAll_cons.2 ⟨_, hnext, ht⟩,
        Nat.succ_le_succ hcount, ?_, List.forall_mem_cons.2 ⟨rfl, hoks⟩, hlast, ?_⟩
      · rw [hout, List.length_cons, Nat.add_sub_add_right]
        simp [passed]
      · rw [List.length_cons]
        omega

end Sys2Proof.Machine
end

section
/-! The statements of 30_encoding.md section 6: the assembler writes encodings, and refuses unfit operands. -/

namespace Sys2Proof.Machine

/-! ### Operands in their fields -/

@[simp] theorem fit_toNat {bits : Nat} (v : BitVec bits) : fit bits v.toNat = some v := by
  rw [fit, if_pos v.isLt, BitVec.ofNat_toNat, BitVec.setWidth_eq]

theorem fit_of_lt {bits n : Nat} (h : n < 2 ^ bits) : fit bits n = some (BitVec.ofNat bits n) := if_pos h

/-- What follows an operand is refused if the operand is, or with the operand's value. -/
theorem fit_bind_eq_none_iff {α : Type} {bits n : Nat} {k : BitVec bits → Option α} :
    (fit bits n).bind k = none ↔ 2 ^ bits ≤ n ∨ k (BitVec.ofNat bits n) = none := by
  obtain h | h := lt_or_ge n (2 ^ bits)
  · rw [fit_of_lt h, Option.bind_some, or_iff_right (Nat.not_le.2 h)]
  · rw [fit, if_neg (Nat.not_lt.2 h)]
    exact iff_of_true rfl (.inl h)

@[simp] theorem fitBytes_map_toNat (bs : List Byte) : fitBytes (bs.map BitVec.toNat) = some bs := by
  induction bs with
  | nil => rfl
  | cons b bs ih => simp [fitBytes, ih]

theorem fitBytes_of_lt {ns : List Nat} (h : ∀ n ∈ ns, n < 256) : fitBytes ns = some (ns.map (BitVec.ofNat 8)) := by
  induction ns with
  | nil => rfl
  | cons n ns ih =>
    obtain ⟨hn, hns⟩ := List.forall_mem_cons.1 h
    rw [fitBytes, fit_of_lt hn, ih hns]
    rfl

theorem fitBytes_of_le {ns : List Nat} (h : ∃ n ∈ ns, 256 ≤ n) : fitBytes ns = none := by
  induction ns with
  | nil => simp at h
  | cons n ns ih =>
    refine fit_bind_eq_none_iff.2 ?_
    obtain ⟨m, hm, hle⟩ := h
    obtain rfl | hm := List.mem_cons.1 hm
    · exact .inl hle
    · exact .inr (by rw [ih ⟨m, hm, hle⟩]; rfl)

/-! ### Lines -/

@[simp] theorem assemble_core (c : AsmCore) : (AsmLine.core c).assemble = c.assemble := by
  simp [AsmLine.assemble, AsmLine.expand, assembleCores]

/-- Settles O51: each operand fits the field it came from. -/
theorem assemblerAgreesWithEncoder : Obligations.AssemblerAgreesWithEncoder := by
  intro i hw
  rw [assemble_core]
  cases i with
  | append len body =>
    have hfit : fitBytes (len.toNat :: body.map BitVec.toNat) = some (len :: body) := fitBytes_map_toNat (len :: body)
    simp [AsmCore.ofInstr, AsmCore.assemble, hfit, hw]
  | sealMessage | validate | next | reset => rfl
  | start | crc | bwr | brd => simp [AsmCore.ofInstr, AsmCore.assemble]

/-- A list of bytes is refused if it has no length byte, or not as many bytes as that asks for. -/
theorem assemble_append_of_lt {n : Nat} {ns : List Nat} (h : ∀ m ∈ n :: ns, m < 256) :
    (AsmCore.append (n :: ns)).assemble = none ↔ (n :: ns).length ≠ max n 1 := by
  have hn : (BitVec.ofNat 8 n).toNat = n := Nat.mod_eq_of_lt (h n List.mem_cons_self)
  rw [AsmCore.assemble, fitBytes_of_lt h]
  simp [Instr.wf, hn, Nat.add_comm 1]

theorem assemble_append_eq_none_iff (ns : List Nat) : (AsmCore.append ns).assemble = none ↔
    (∃ n ∈ ns, 256 ≤ n) ∨ ns.length ≠ max (ns.headD 0) 1 := by
  by_cases hwide : ∃ n ∈ ns, 256 ≤ n
  · rw [AsmCore.assemble, fitBytes_of_le hwide]
    exact iff_of_true rfl (.inl hwide)
  · rw [or_iff_right hwide]
    cases ns with
    | nil => exact iff_of_true rfl (by decide)
    | cons n ns => exact assemble_append_of_lt fun m hm => Nat.lt_of_not_le fun hle => hwide ⟨m, hm, hle⟩

/-- Settles O52: an operand that does not fit is refused where it is read, and a list by its length byte. -/
theorem assemblerRefusesUnfitOperands : Obligations.AssemblerRefusesUnfitOperands := by
  refine ⟨fun mfr prod pip sensor => ?_, assemble_append_eq_none_iff, fun lo hi => ?_, fun addr data => ?_,
    fun addr => ?_, fun b => ?_⟩
  all_goals
    simp only [AsmCore.assemble, Option.bind_eq_bind, fit_bind_eq_none_iff, Option.pure_def, reduceCtorEq, or_false,
      Nat.reducePow]

end Sys2Proof.Machine
end
